-- ==== Sys2Proof/Word.lean ====
section
/-! DEFINITION. The byte, the only word the block moves (00_scope.md R11: an 8-bit unsigned value; every access is one
byte wide, 20_memory.md R46). -/

namespace Sys2Proof

/-- A byte is an 8-bit unsigned value (R11; the spec marks the width as general knowledge, G1). Its arithmetic is modulo 256. -/
abbrev Byte := BitVec 8

end Sys2Proof
end

