-- ==== Sys2Proof/Config.lean ====
section
/-! DEFINITION. What is fixed for the life of one block (00_scope.md R7, 10_state.md R24) and the values the spec leaves free.
A configuration is plain data in the one field `cfg` of State, which no step writes: a statement about every state is a
statement about every configuration. -/

namespace Sys2Proof

/-- ESC_END_POLICY (R7, D8): what an end marker directly after an escape byte does to the parse (41_decoder.md R140). -/
inductive EscEndPolicy where
  | terminate
  | drain
deriving DecidableEq, Repr, Inhabited

/-- The constraints of 00_scope.md R8, the "which constraint" that a refused configuration records (60_exceptions.md R182). -/
inductive Constraint where
  | k1
  | k2
  | k3
  | k4
deriving DecidableEq, Repr

/-- The parameters of the block, 00_scope.md R7. The defaults are R7's: C = 2N + 2 (D4), P = TERMINATE (D8); `maxBuf = none` is
the unbounded M (D15). -/
structure Config where
  /-- START_BYTE, S. -/
  startByte : Byte
  /-- END_BYTE, E. -/
  endByte : Byte
  /-- ESC_BYTE, X. -/
  escByte : Byte
  /-- ESC_OFFSET, K. -/
  escOffset : Byte
  /-- PACKET_SIZE less 5: N itself is `Config.packetSize`. R7 and R9 give N >= 5, so a smaller N cannot be written (log 2). -/
  packetSizeMinus5 : Nat
  /-- FRAME_CAP, C. -/
  frameCap : Nat := 2 * (packetSizeMinus5 + 5) + 2
  /-- MAX_BUF, M; `none` is unbounded. -/
  maxBuf : Option Nat := none
  /-- ESC_END_POLICY, P. -/
  escEndPolicy : EscEndPolicy := .terminate
deriving DecidableEq, Repr, Inhabited

/-- PACKET_SIZE, N: a natural number of at least 5 (R7, R9), and any such number. -/
def Config.packetSize (c : Config) : Nat := c.packetSizeMinus5 + 5

/-- The parameters this block was built with. The source gives no value (N1, N2, I2), so nothing can be proved of it:
a free value, the configuration of `State.reset`. DESIGN CHOICE, safe (log 1). -/
opaque Config.block : Config

/-- What a byte of enc_buf or asm reads as when nothing has written it, by its index: any value (I9, D22). Safe (log 6). -/
opaque Config.unwritten : Nat → Byte

/-- The reference configuration RC of 00_scope.md R10 (N = 12): for the words of the opcode table (whose `match` values are RC's) and for
tests; `State.reset` does not use it. -/
def Config.rc : Config :=
  { startByte := 0x7E, endByte := 0x7F, escByte := 0x7D, escOffset := 0x20, packetSizeMinus5 := 7 }

end Sys2Proof
end

