-- ==== Sys2Proof/Syntax.lean ====
section
/-! DEFINITION. The instructions, one constructor per row of spec/opcode_table.json, and what they are read from: the
operation port and the two units' selecting conditions (30_encoding.md R63, R70). -/

namespace Sys2Proof

/-- enc_state, 10_state.md R25. -/
inductive EncState where
  | idle
  | body
  | done
deriving DecidableEq, Repr

/-- dec_state, the non-terminal states of 10_state.md R26 and 41_decoder.md R131. -/
inductive DecState where
  | scan
  | body
  | escd
  | drain
deriving DecidableEq, Repr

/-- The encoder's byte classes, 30_encoding.md R62: the reserved class has one row for each of S, E and X in the opcode table. -/
inductive EncClass where
  | markS
  | markE
  | markX
  | plain
deriving DecidableEq, Repr

/-- The decoder's seven byte classes, 30_encoding.md R63. -/
inductive DecClass where
  | markS
  | markE
  | markX
  | escS
  | escE
  | escX
  | other
deriving DecidableEq, Repr

/-- The operations and the byte-level steps: every row of spec/opcode_table.json. A wire_byte row whose byte is OTHER carries the
byte it matched. -/
inductive Instr where
  /-- NOP, R171. -/
  | nop
  /-- ENCODE pkt, R100. -/
  | encode (pkt : List Byte)
  /-- DECODE buf, R130. -/
  | decode (buf : List Byte)
  /-- BIND_SINK v, R170. -/
  | bindSink (v : Bool)
  /-- ENC_NOSINK, R107: the ENCODE of pkt with SINK_BOUND = 0. -/
  | encNosink (pkt : List Byte)
  /-- ENC_START, R102. -/
  | encStart
  /-- ENC_ESCAPE.S, R104 for the byte S. -/
  | encEscapeS
  /-- ENC_ESCAPE.E, R104 for the byte E. -/
  | encEscapeE
  /-- ENC_ESCAPE.X, R104 for the byte X. -/
  | encEscapeX
  /-- ENC_PLAIN, R103 for the byte b. -/
  | encPlain (b : Byte)
  /-- ENC_DROP, R105. -/
  | encDrop
  /-- ENC_FINISH, R106. -/
  | encFinish
  /-- DEC_SCAN_START, R134. -/
  | decScanStart
  /-- DEC_SCAN_SKIP, R135 for the byte b. -/
  | decScanSkip (b : Byte)
  /-- DEC_BODY_ESC, R136. -/
  | decBodyEsc
  /-- DEC_BODY_END, R137. -/
  | decBodyEnd
  /-- DEC_BODY_DATA, R138 for the byte b. -/
  | decBodyData (b : Byte)
  /-- DEC_ESC_S, R139 for the byte esc(S). -/
  | decEscS
  /-- DEC_ESC_E, R139 for the byte esc(E). -/
  | decEscE
  /-- DEC_ESC_X, R139 for the byte esc(X). -/
  | decEscX
  /-- DEC_ESC_END, R140. -/
  | decEscEnd
  /-- DEC_ESC_BAD, R141 for the byte b. -/
  | decEscBad (b : Byte)
  /-- DEC_DRAIN_END, R142. -/
  | decDrainEnd
  /-- DEC_DRAIN_SKIP, R143 for the byte b. -/
  | decDrainSkip (b : Byte)
  /-- DEC_EXHAUST, R144. -/
  | decExhaust
deriving DecidableEq, Repr

/-- The lines of the operation port, 30_encoding.md R70: the 2-bit `op[1:0]`, the 1-bit operand v of BIND_SINK, and the
byte operand of ENCODE and DECODE with its length. An operation reads the lines of its own operands and no other
(DESIGN CHOICE: log 10). -/
structure PortWord where
  op : BitVec 2
  v : Bool
  data : List Byte
deriving DecidableEq, Repr

/-- The port with no request on it: NOP (42_control.md R171). -/
def PortWord.quiet : PortWord := { op := 0, v := false, data := [] }

/-- What an instruction is read from: the opcode table's columns, with every condition of a row already looked up.
`port` holds SINK_BOUND, the condition of ENC_NOSINK; `encoderByte b fits` is BODY with the packet byte b, and `fits` says that
its unit and the end marker fit (the condition of ENC_DROP); `decoderEnd` is pos = L in the state given. -/
inductive Present where
  | port (sinkBound : Bool) (w : PortWord)
  | encoderIdle
  | encoderStart
  | encoderByte (b : Byte) (fits : Bool)
  | encoderFinish
  | decoderIdle
  | decoderByte (st : DecState) (b : Byte)
  | decoderEnd (st : DecState)
deriving DecidableEq, Repr

/-- Why the decoder of instructions reads none: the unit has no operation in progress, so no row's condition holds. -/
inductive NoInstr where
  | encoderIdle
  | decoderIdle
deriving DecidableEq, Repr

end Sys2Proof
end

