-- ==== Sys2Proof/Machine/Bytes.lean ====
section
/-! DEFINITION. Escaping, the reserved and escaped sets, the byte classes and the admission check
(00_scope.md R8 and R14, 30_encoding.md R60 to R64). -/

namespace Sys2Proof

/-- esc(b) = (b + K) mod 256, R14; the wrap is D5. -/
def Config.esc (c : Config) (b : Byte) : Byte := b + c.escOffset

/-- unesc(v) = (v - K + 256) mod 256, R14. -/
def Config.unesc (c : Config) (v : Byte) : Byte := v - c.escOffset

/-- The reserved set R = {S, E, X}, R14 and R60. -/
def Config.reserved (c : Config) : List Byte := [c.startByte, c.endByte, c.escByte]

/-- The escaped set Q = {esc(S), esc(E), esc(X)}, R14 and R60. -/
def Config.escaped (c : Config) : List Byte := [c.esc c.startByte, c.esc c.endByte, c.esc c.escByte]

/-- K1 of R8: S, E and X are pairwise distinct. -/
abbrev Config.K1 (c : Config) : Prop :=
  c.startByte ≠ c.endByte ∧ c.startByte ≠ c.escByte ∧ c.endByte ≠ c.escByte

/-- K2 of R8: K mod 256 != 0. -/
abbrev Config.K2 (c : Config) : Prop := c.escOffset ≠ 0

/-- K3 of R8: no element of Q is in R. -/
abbrev Config.K3 (c : Config) : Prop := ∀ q ∈ c.escaped, q ∉ c.reserved

/-- K4 of R8: C >= 2. -/
abbrev Config.K4 (c : Config) : Prop := 2 ≤ c.frameCap

/-- A configuration is admitted only if K1 to K4 all hold (R8). -/
abbrev Config.Admitted (c : Config) : Prop := c.K1 ∧ c.K2 ∧ c.K3 ∧ c.K4

/-- The constraint a refused configuration records (R182); DESIGN CHOICE, unsafe: the first one broken, in R8's order (log 8). -/
def Config.broken (c : Config) : Option Constraint :=
  if ¬ c.K1 then some .k1
  else if ¬ c.K2 then some .k2
  else if ¬ c.K3 then some .k3
  else if ¬ c.K4 then some .k4
  else none

/-- unit(b), 30_encoding.md R64: the escape pair of a reserved byte, the byte itself otherwise. -/
def Config.unit (c : Config) (b : Byte) : List Byte :=
  if b ∈ c.reserved then [c.escByte, c.esc b] else [b]

/-- The encoder's class of a packet byte, R62. -/
def Config.encClass (c : Config) (b : Byte) : EncClass :=
  if b = c.startByte then .markS
  else if b = c.endByte then .markE
  else if b = c.escByte then .markX
  else .plain

/-- The decoder's class of an input byte, R63. The classes of an admitted configuration do not overlap (R61), so the order of the
tests does not matter there. -/
def Config.decClass (c : Config) (b : Byte) : DecClass :=
  if b = c.startByte then .markS
  else if b = c.endByte then .markE
  else if b = c.escByte then .markX
  else if b = c.esc c.startByte then .escS
  else if b = c.esc c.endByte then .escE
  else if b = c.esc c.escByte then .escX
  else .other

/-- 0 <= L <= M for a DECODE operand of L bytes; every length when M is unbounded (R40, R71, D15). -/
def Config.bufFits (c : Config) (len : Nat) : Bool :=
  match c.maxBuf with
  | none => true
  | some m => decide (len ≤ m)

end Sys2Proof
end

