-- ==== Sys2Proof/WellFormed.lean ====
section
/-! DEFINITION. Which instructions are well formed under a configuration: operands of the size the spec gives them
(30_encoding.md R71) and, for a row whose byte is OTHER, a byte that no other row of the same unit and state matches
(R62, R63). -/

namespace Sys2Proof

/-- R71 for ENCODE and DECODE; the operand's class for R103, R135, R138, R141 and R143. -/
def Instr.wf (c : Config) : Instr → Bool
  | .nop => true
  | .encode pkt => decide (pkt.length = c.packetSize)
  | .decode buf => c.bufFits buf.length
  | .bindSink _ => true
  | .encNosink pkt => decide (pkt.length = c.packetSize)
  | .encStart => true
  | .encEscapeS => true
  | .encEscapeE => true
  | .encEscapeX => true
  | .encPlain b => decide (b ∉ c.reserved)
  | .encDrop => true
  | .encFinish => true
  | .decScanStart => true
  | .decScanSkip b => decide (b ≠ c.startByte)
  | .decBodyEsc => true
  | .decBodyEnd => true
  | .decBodyData b => decide (b ≠ c.escByte ∧ b ≠ c.endByte)
  | .decEscS => true
  | .decEscE => true
  | .decEscX => true
  | .decEscEnd => true
  | .decEscBad b => decide (b ∉ c.escaped ∧ b ≠ c.endByte)
  | .decDrainEnd => true
  | .decDrainSkip b => decide (b ≠ c.endByte)
  | .decExhaust => true

end Sys2Proof
end

