-- ==== Sys2Proof/Decode.lean ====
section
/-! DEFINITION. Reading an instruction from what the port or a unit presents, and the encoder that goes the other way; both
written from 30_encoding.md R62, R63, R70 and spec/opcode_table.json. -/

namespace Sys2Proof

/-- The operation port map, R70, with the row ENC_NOSINK (R107): op = 01 while SINK_BOUND = 0. All four codes are assigned (R72). -/
def decodePort (sinkBound : Bool) (w : PortWord) : Instr :=
  if w.op = 0 then .nop
  else if w.op = 1 then (if sinkBound then .encode w.data else .encNosink w.data)
  else if w.op = 2 then .decode w.data
  else .bindSink w.v

/-- The encoder's row for the packet byte b in BODY: ENC_DROP when its unit does not fit (R105), else the row of its class (R62). -/
def decodeEncoderByte (c : Config) (b : Byte) (fits : Bool) : Instr :=
  if fits then
    match c.encClass b with
    | .markS => .encEscapeS
    | .markE => .encEscapeE
    | .markX => .encEscapeX
    | .plain => .encPlain b
  else .encDrop

/-- The decoder's transition map, R63: one row for each state and byte class. -/
def decodeDecoderByte (c : Config) (st : DecState) (b : Byte) : Instr :=
  match st, c.decClass b with
  | .scan, .markS => .decScanStart
  | .scan, .markE => .decScanSkip b
  | .scan, .markX => .decScanSkip b
  | .scan, .escS => .decScanSkip b
  | .scan, .escE => .decScanSkip b
  | .scan, .escX => .decScanSkip b
  | .scan, .other => .decScanSkip b
  | .body, .markS => .decBodyData b
  | .body, .markE => .decBodyEnd
  | .body, .markX => .decBodyEsc
  | .body, .escS => .decBodyData b
  | .body, .escE => .decBodyData b
  | .body, .escX => .decBodyData b
  | .body, .other => .decBodyData b
  | .escd, .markS => .decEscBad b
  | .escd, .markE => .decEscEnd
  | .escd, .markX => .decEscBad b
  | .escd, .escS => .decEscS
  | .escd, .escE => .decEscE
  | .escd, .escX => .decEscX
  | .escd, .other => .decEscBad b
  | .drain, .markS => .decDrainSkip b
  | .drain, .markE => .decDrainEnd
  | .drain, .markX => .decDrainSkip b
  | .drain, .escS => .decDrainSkip b
  | .drain, .escE => .decDrainSkip b
  | .drain, .escX => .decDrainSkip b
  | .drain, .other => .decDrainSkip b

/-- The instruction a presentation selects, or the name of why there is none. -/
def decode (c : Config) : Present → Except NoInstr Instr
  | .port sinkBound w => .ok (decodePort sinkBound w)
  | .encoderIdle => .error .encoderIdle
  | .encoderStart => .ok .encStart
  | .encoderByte b fits => .ok (decodeEncoderByte c b fits)
  | .encoderFinish => .ok .encFinish
  | .decoderIdle => .error .decoderIdle
  | .decoderByte st b => .ok (decodeDecoderByte c st b)
  | .decoderEnd _ => .ok .decExhaust

/-- A presentation that selects the instruction given, from the same tables (R62, R63, R70). Where a row does not look at a column,
the value there is 0, false or SCAN. -/
def encode (c : Config) : Instr → Present
  | .nop => .port false { op := 0, v := false, data := [] }
  | .encode pkt => .port true { op := 1, v := false, data := pkt }
  | .decode buf => .port false { op := 2, v := false, data := buf }
  | .bindSink v => .port false { op := 3, v := v, data := [] }
  | .encNosink pkt => .port false { op := 1, v := false, data := pkt }
  | .encStart => .encoderStart
  | .encEscapeS => .encoderByte c.startByte true
  | .encEscapeE => .encoderByte c.endByte true
  | .encEscapeX => .encoderByte c.escByte true
  | .encPlain b => .encoderByte b true
  | .encDrop => .encoderByte 0 false
  | .encFinish => .encoderFinish
  | .decScanStart => .decoderByte .scan c.startByte
  | .decScanSkip b => .decoderByte .scan b
  | .decBodyEsc => .decoderByte .body c.escByte
  | .decBodyEnd => .decoderByte .body c.endByte
  | .decBodyData b => .decoderByte .body b
  | .decEscS => .decoderByte .escd (c.esc c.startByte)
  | .decEscE => .decoderByte .escd (c.esc c.endByte)
  | .decEscX => .decoderByte .escd (c.esc c.escByte)
  | .decEscEnd => .decoderByte .escd c.endByte
  | .decEscBad b => .decoderByte .escd b
  | .decDrainEnd => .decoderByte .drain c.endByte
  | .decDrainSkip b => .decoderByte .drain b
  | .decExhaust => .decoderEnd .scan

/-- What a word of spec/opcode_table.json presents, under RC, whose values the table's words are. The table gives the same word to
several rows (op codes 0 to 3 are wire bytes too, 7E, 7D and 7F belong to rows of both units), so ONE reading is fixed:
values 0 to 3 are op[1:0] with operands of zeros (a packet of N zeros, a buffer of 12 zeros, v = 0) and, for op = 01, a bound sink;
a byte of Q is the decoder's in ESCD; any other byte is the encoder's in BODY. DESIGN CHOICE, unsafe (log 11). -/
def tablePresent (nbits w : Nat) : Option Present :=
  if 8 < nbits ∨ 256 ≤ w then none
  else if w < 4 then
    some (.port true { op := BitVec.ofNat 2 w, v := false, data := List.replicate Config.rc.packetSize 0 })
  else if BitVec.ofNat 8 w ∈ Config.rc.escaped then some (.decoderByte .escd (BitVec.ofNat 8 w))
  else some (.encoderByte (BitVec.ofNat 8 w) true)

/-- The instruction the decoder reads from a word of the opcode table. -/
def decodeTableWord (nbits w : Nat) : Option Instr :=
  match tablePresent nbits w with
  | none => none
  | some p =>
    match decode Config.rc p with
    | .ok i => some i
    | .error _ => none

end Sys2Proof
end

