-- ==== Sys2Proof/Machine/State.lean ====
section
/-! DEFINITION. The state of the block and of the world it talks to, as plain data (10_state.md, 20_memory.md R40), the faults of
60_exceptions.md R182, and reset (10_state.md R32, 70_reset_and_hazards.md R200). -/

namespace Sys2Proof.Machine

/-- A working buffer (enc_buf or asm): the bytes written, by index, in one canonical form (`Memory.wf`). An index that is
not listed holds no value of the model's (20_memory.md R40; log 6). -/
abbrev Memory := List Host.Cell

/-- The canonical form: indices strictly rising. An unlisted index has no value, so no entry can equal one. -/
abbrev Memory.wf (m : Memory) : Prop := (m.map Prod.fst).Pairwise (· < ·)

/-- The encoder unit, 10_state.md R25, with the operand of the ENCODE in progress (20_memory.md R40). -/
structure EncUnit where
  /-- enc_state. -/
  st : EncState
  /-- The operand pkt; `none` when no ENCODE is in progress. -/
  pkt : Option (List Byte)
  /-- enc_buf. -/
  buf : Memory
  /-- enc_len. -/
  len : Nat
  /-- enc_i. -/
  i : Nat
  /-- enc_trunc. -/
  trunc : Bool
deriving DecidableEq, Repr

/-- The encoder unit between operations. enc_state = IDLE is R32's; the other values, which R32 calls unspecified and not
observable, are a DESIGN CHOICE, unsafe (log 5). -/
def EncUnit.idle : EncUnit :=
  { st := .idle, pkt := none, buf := [], len := 0, i := 0, trunc := false }

/-- The decoder unit, 10_state.md R26, with the operand of the DECODE in progress (20_memory.md R40). -/
structure DecUnit where
  /-- dec_state. -/
  st : DecState
  /-- The operand buf; `none` when no DECODE is in progress. -/
  buf : Option (List Byte)
  /-- asm. -/
  asm : Memory
  /-- idx. -/
  idx : Nat
  /-- ovf. -/
  ovf : Bool
  /-- pos. -/
  pos : Nat
deriving DecidableEq, Repr

/-- The decoder unit between operations. R32 gives dec_state no value there and gives SCAN, 0, false, 0 at the start of a DECODE;
holding those values between operations is a DESIGN CHOICE, unsafe (log 5). -/
def DecUnit.idle : DecUnit :=
  { st := .scan, buf := none, asm := [], idx := 0, ovf := false, pos := 0 }

/-- The event SinkEmit(f): the frame bytes and their length (00_scope.md R13, 40_encoder.md R106). -/
structure SinkEvent where
  frame : List Byte
  length : Nat
deriving DecidableEq, Repr

/-- The result triple of a DECODE (10_state.md R28, 30_encoding.md R75): `pkt` is none when valid = 0. -/
structure Result where
  valid : Bool
  consumed : Nat
  pkt : Option (List Byte)
deriving DecidableEq, Repr

/-- What the host does, and whose turn it is in a byte-serial realisation (10_state.md R20, 30_encoding.md R70). DESIGN CHOICE (log 3). -/
inductive Input where
  /-- An operation on the port, performed atomically (transaction level, D1). -/
  | request (w : PortWord)
  /-- The same presentation to the byte-serial realisation: ENCODE and DECODE are taken in and then worked byte by byte. -/
  | serial (w : PortWord)
  /-- The encoder unit takes its next byte-level step. -/
  | encoderTurn
  /-- The decoder unit takes its next byte-level step. -/
  | decoderTurn
  /-- Reset is asserted (R200). -/
  | reset
  /-- The host changes the buffer of the DECODE in progress (R205). -/
  | changeBuf
  /-- A second decoder is given the destination that this one's results go to (R205). -/
  | shareDest
deriving DecidableEq, Repr

/-- The operation a refused operand belongs to (60_exceptions.md R182, code 2). -/
inductive OpName where
  | encode
  | decode
deriving DecidableEq, Repr

/-- The model faults of 60_exceptions.md R182, each with the value it records, and one fault of the model's own. -/
inductive Fault where
  /-- Code 1, raised by `step` for a configuration that breaks a constraint (R8). Safe: the spec has no step there. Of several broken
  constraints the first is recorded, which is unsafe (log 8). -/
  | configRefused (k : Constraint)
  /-- Code 2, raised by ENCODE and ENC_NOSINK with len(pkt) != N and by DECODE with L > M (R71). Safe: D25 errs toward unprovable. -/
  | operandRefused (op : OpName) (length : Nat)
  /-- Code 3, raised by BIND_SINK while an ENCODE is in progress (R204). Safe: D13 errs toward unprovable. -/
  | bindRace
  /-- Code 4, raised when the host changes buf during a DECODE, or at any time when two decoders share a destination (R205). Safe: D14 errs toward
  unprovable. -/
  | bufferRace
  /-- The model's own, raised by ENC_START and ENC_FINISH for a write to enc_buf at an index of C or more, which R43 says never
  happens. Safe: the machine stops where the spec gives no byte to write (log 7). -/
  | outOfBounds
deriving DecidableEq, Repr

/-- Why a step has no meaning. No arm of `exec` is left without one. -/
inductive Refusal where
  /-- Raised by `exec` for an instruction that has no meaning yet. Safe. -/
  | notModelled (mnemonic : String)
deriving DecidableEq, Repr

/-- The machine: the configuration, the control register, the two units, and the outside as plain data. -/
structure State where
  /-- S, E, X, K, N, C, M and P (R24): written by no step. -/
  cfg : Config
  /-- SINK_BOUND (R23). -/
  sinkBound : Bool
  enc : EncUnit
  dec : DecUnit
  /-- The MODEL's own: what the host does next, oldest first. -/
  inputs : List Input
  /-- The MODEL's own: the SinkEmit events made so far, oldest first. -/
  sunk : List SinkEvent
  /-- The MODEL's own: the results returned so far, oldest first. -/
  results : List Result
deriving DecidableEq, Repr

/-- A block of configuration `c` right after reset: SINK_BOUND = 0, both units idle (R32, R200), nothing done yet. -/
def State.resetOf (c : Config) : State :=
  { cfg := c, sinkBound := false, enc := EncUnit.idle, dec := DecUnit.idle, inputs := [], sunk := [], results := [] }

/-- The machine right after reset, with the parameters the block was built with (R24: reset does not change them). -/
def State.reset : State := State.resetOf Config.block

end Sys2Proof.Machine
end

