-- ==== Sys2Proof/Machine/Ops.lean ====
section
/-! DEFINITION. The named operations over the working buffers, the units and the outside. Taking an exception and returning
from one have no operation here: the block has no trap, saved state, vector or handler (60_exceptions.md R180, R185); a model
fault is the outcome `.fault`, which has no further step (R182). -/

namespace Sys2Proof.Machine

/-- The byte listed at an index, if any. -/
def Memory.read : Memory → Nat → Option Byte
  | [], _ => none
  | (k, w) :: m, a => if a = k then some w else Memory.read m a

/-- Writes one byte and keeps the canonical form. -/
def Memory.write : Memory → Nat → Byte → Memory
  | [], a, v => [(a, v)]
  | (k, w) :: m, a, v =>
    if a < k then (a, v) :: (k, w) :: m
    else if a = k then (a, v) :: m
    else (k, w) :: Memory.write m a v

/-- MemWrite on a working buffer of `bound` bytes (00_scope.md R13): defined only at an index below the bound (20_memory.md R42, R43). -/
def Memory.writeWithin (bound : Nat) (m : Memory) (a : Nat) (v : Byte) : Option Memory :=
  if a < bound then some (m.write a v) else none

/-- The slice [0..n) of a working buffer; a byte that nothing has written is the free value of its index (I9, log 6). -/
def Memory.slice (m : Memory) (n : Nat) : List Byte :=
  (List.range n).map fun a => (m.read a).getD (Config.unwritten a)

/-- An ENCODE is in progress in the byte-serial encoder: it holds an operand, or enc_state != IDLE (R204). -/
def EncUnit.busy (u : EncUnit) : Bool := u.pkt.isSome || decide (u.st ≠ .idle)

/-- A DECODE is in progress in the byte-serial decoder. -/
def DecUnit.busy (u : DecUnit) : Bool := u.buf.isSome

/-- `MemWrite(enc_buf, enc_len, 1, v); enc_len <- enc_len + 1` (40_encoder.md R101); none past the capacity. -/
def EncUnit.put (c : Config) (u : EncUnit) (v : Byte) : Option EncUnit :=
  (u.buf.writeWithin c.frameCap u.len v).map fun m => { u with buf := m, len := u.len + 1 }

/-- `put` for each byte of a unit, in order (R101). -/
def EncUnit.putAll (c : Config) (u : EncUnit) : List Byte → Option EncUnit
  | [] => some u
  | v :: vs =>
    match u.put c v with
    | none => none
    | some u' => EncUnit.putAll c u' vs

/-- The encoder unit as it is left by a step, or the fault of a write past enc_buf. -/
def State.withEnc (s : State) : Option EncUnit → Host.Outcome State Fault Refusal
  | none => .fault .outOfBounds
  | some u => .next { s with enc := u }

/-- The encoder appends the unit `vs` of the packet byte at enc_i and moves to the next one (R103, R104). -/
def State.appendUnit (s : State) (vs : List Byte) : Host.Outcome State Fault Refusal :=
  s.withEnc ((s.enc.putAll s.cfg vs).map fun u => { u with i := u.i + 1 })

/-- SinkEmit(f): one indivisible event with the whole frame and its length (R106, 20_memory.md R46). -/
def State.emit (s : State) (f : List Byte) : State :=
  { s with sunk := s.sunk ++ [{ frame := f, length := f.length }] }

/-- `return (valid, consumed, pkt)` of a DECODE (41_decoder.md R147). -/
def State.give (s : State) (r : Result) : State :=
  { s with results := s.results ++ [r] }

/-- The decoder's byte is counted: pos <- pos + 1 (R133). -/
def DecUnit.counted (u : DecUnit) : DecUnit := { u with pos := u.pos + 1 }

/-- The decoder unit as a step leaves it. -/
def State.withDec (s : State) (u : DecUnit) : State := { s with dec := u }

/-- The byte-serial DECODE ends with a result; its working state no longer exists (10_state.md R26, R27). -/
def State.endDecode (s : State) (r : Result) : State :=
  (s.withDec DecUnit.idle).give r

/-- Reset while running (70_reset_and_hazards.md R200): SINK_BOUND is 0, both units are idle, what was in progress is abandoned; the
parameters stay (R201). What the outside has seen, and what the host does next, are not the block's to undo. -/
def State.applyReset (s : State) : State :=
  { s with sinkBound := false, enc := EncUnit.idle, dec := DecUnit.idle }

end Sys2Proof.Machine
end

