-- ==== Sys2Proof/Machine/Operands.lean ====
section
/-! DEFINITION. Operands: the size checks of 30_encoding.md R71 and the bytes a unit reads from its operand buffer
(20_memory.md R41). -/

namespace Sys2Proof.Machine

/-- An ENCODE takes exactly N bytes; any other length is Fault 2 (R71). -/
def pktRefused (c : Config) (pkt : List Byte) : Option Fault :=
  if pkt.length = c.packetSize then none else some (.operandRefused .encode pkt.length)

/-- A DECODE takes at most M bytes; more is Fault 2 (R71). -/
def bufRefused (c : Config) (buf : List Byte) : Option Fault :=
  if c.bufFits buf.length then none else some (.operandRefused .decode buf.length)

/-- The packet byte at enc_i, `MemRead(pkt, enc_i, 1)`, read only for enc_i < N (R41, 40_encoder.md R101). -/
def EncUnit.cur (c : Config) (u : EncUnit) : Option Byte :=
  if u.i < c.packetSize then u.pkt.bind fun p => p[u.i]? else none

/-- The next input byte, `MemRead(buf, pos, 1)`, read only for pos < L (R41, 41_decoder.md R133). -/
def DecUnit.cur (u : DecUnit) : Option Byte :=
  u.buf.bind fun b => b[u.pos]?

/-- enc_state = BODY, enc_trunc = false, and b is the packet byte at enc_i: the common part of the guards of R103 to R105. -/
abbrev EncUnit.sees (c : Config) (u : EncUnit) (b : Byte) : Prop :=
  u.st = .body ∧ u.trunc = false ∧ u.cur c = some b

/-- The decoder is in the state given and b is its next byte: what selects a transition (30_encoding.md R63). -/
abbrev DecUnit.sees (u : DecUnit) (st : DecState) (b : Byte) : Prop :=
  u.st = st ∧ u.cur = some b

/-- The capacity check enc_len + len(unit(b)) + 1 <= C (40_encoder.md R101, D6). -/
abbrev EncUnit.fits (c : Config) (u : EncUnit) (b : Byte) : Prop :=
  u.len + (c.unit b).length + 1 ≤ c.frameCap

end Sys2Proof.Machine
end

