-- ==== Sys2Proof/Machine/Flags.lean ====
section
/-! DEFINITION. The flags: ovf, set by the bounded store (41_decoder.md R145), and valid, computed by the length check (R146).
The encoder has no flag (10_state.md R29). -/

namespace Sys2Proof.Machine

/-- Store(v), R145: written and counted while idx < N; after that the byte is discarded and ovf is set. -/
def DecUnit.store (c : Config) (u : DecUnit) (v : Byte) : DecUnit :=
  if u.idx < c.packetSize then { u with asm := u.asm.write u.idx v, idx := u.idx + 1 }
  else { u with ovf := true }

/-- Finish(pos), R146: valid only with ovf = false and idx = N; a failed parse carries no packet (R148). -/
def DecUnit.finish (c : Config) (u : DecUnit) : Result :=
  if u.ovf = false ∧ u.idx = c.packetSize then
    { valid := true, consumed := u.pos, pkt := some (u.asm.slice c.packetSize) }
  else { valid := false, consumed := u.pos, pkt := none }

/-- The result of a parse that failed after `n` inspected bytes (R140, R142, R144, R148). -/
def Result.invalid (n : Nat) : Result := { valid := false, consumed := n, pkt := none }

end Sys2Proof.Machine
end

