-- ==== Sys2Proof/Machine/Decoder.lean ====
section
/-! DEFINITION. The byte-level steps of the decoder unit (41_decoder.md R133 to R144): each reads buf[pos], counts it, and applies
the transition its state and byte class select (30_encoding.md R63). A step that is not selected is not taken (log 9). -/

namespace Sys2Proof.Machine

/-- The byte-serial DECODE is issued: the operand check (R71), then the initial state of R132 with buf held (log 10). -/
def beginDecode (buf : List Byte) (s : State) : Host.Outcome State Fault Refusal :=
  match bufRefused s.cfg buf with
  | some f => .fault f
  | none =>
    .next (s.withDec { st := .scan, buf := some buf, asm := [], idx := 0, ovf := false, pos := 0 })

/-- DEC_SCAN_START, R134: SCAN, byte = S: dec_state <- BODY, counted and not stored. -/
def execDecScanStart (s : State) : Host.Outcome State Fault Refusal :=
  if s.dec.sees .scan s.cfg.startByte then .next (s.withDec { s.dec.counted with st := .body })
  else .next s

/-- DEC_SCAN_SKIP, R135: SCAN, byte != S: counted and discarded. -/
def execDecScanSkip (b : Byte) (s : State) : Host.Outcome State Fault Refusal :=
  if s.dec.sees .scan b ∧ b ≠ s.cfg.startByte then .next (s.withDec s.dec.counted)
  else .next s

/-- DEC_BODY_ESC, R136: BODY, byte = X: dec_state <- ESCD, counted and not stored. -/
def execDecBodyEsc (s : State) : Host.Outcome State Fault Refusal :=
  if s.dec.sees .body s.cfg.escByte then .next (s.withDec { s.dec.counted with st := .escd })
  else .next s

/-- DEC_BODY_END, R137: BODY, byte = E: return Finish(pos), pos counting this E (R146). -/
def execDecBodyEnd (s : State) : Host.Outcome State Fault Refusal :=
  if s.dec.sees .body s.cfg.endByte then .next (s.endDecode (s.dec.counted.finish s.cfg))
  else .next s

/-- DEC_BODY_DATA, R138: BODY, any byte but X and E: Store(b) (R145). -/
def execDecBodyData (b : Byte) (s : State) : Host.Outcome State Fault Refusal :=
  if s.dec.sees .body b ∧ b ≠ s.cfg.escByte ∧ b ≠ s.cfg.endByte then
    .next (s.withDec (s.dec.counted.store s.cfg b))
  else .next s

/-- R139 for the byte v ∈ Q: ESCD, byte = v: Store(unesc(v)); dec_state <- BODY. -/
def decUnescape (v : Byte) (s : State) : Host.Outcome State Fault Refusal :=
  if s.dec.sees .escd v then
    .next (s.withDec { s.dec.counted.store s.cfg (s.cfg.unesc v) with st := .body })
  else .next s

/-- DEC_ESC_S, R139 with the byte esc(S). -/
def execDecEscS (s : State) : Host.Outcome State Fault Refusal := decUnescape (s.cfg.esc s.cfg.startByte) s

/-- DEC_ESC_E, R139 with the byte esc(E). -/
def execDecEscE (s : State) : Host.Outcome State Fault Refusal := decUnescape (s.cfg.esc s.cfg.endByte) s

/-- DEC_ESC_X, R139 with the byte esc(X). -/
def execDecEscX (s : State) : Host.Outcome State Fault Refusal := decUnescape (s.cfg.esc s.cfg.escByte) s

/-- DEC_ESC_END, R140: ESCD, byte = E: the parse ends here under TERMINATE and drains on under DRAIN. -/
def execDecEscEnd (s : State) : Host.Outcome State Fault Refusal :=
  if s.dec.sees .escd s.cfg.endByte then
    match s.cfg.escEndPolicy with
    | .terminate => .next (s.endDecode (Result.invalid s.dec.counted.pos))
    | .drain => .next (s.withDec { s.dec.counted with st := .drain })
  else .next s

/-- DEC_ESC_BAD, R141: ESCD, byte ∉ Q ∪ {E}: dec_state <- DRAIN, counted, nothing stored. -/
def execDecEscBad (b : Byte) (s : State) : Host.Outcome State Fault Refusal :=
  if s.dec.sees .escd b ∧ b ∉ s.cfg.escaped ∧ b ≠ s.cfg.endByte then
    .next (s.withDec { s.dec.counted with st := .drain })
  else .next s

/-- DEC_DRAIN_END, R142: DRAIN, byte = E: return (0, pos, none), the E counted. -/
def execDecDrainEnd (s : State) : Host.Outcome State Fault Refusal :=
  if s.dec.sees .drain s.cfg.endByte then .next (s.endDecode (Result.invalid s.dec.counted.pos))
  else .next s

/-- DEC_DRAIN_SKIP, R143: DRAIN, byte != E: counted, nothing stored. -/
def execDecDrainSkip (b : Byte) (s : State) : Host.Outcome State Fault Refusal :=
  if s.dec.sees .drain b ∧ b ≠ s.cfg.endByte then .next (s.withDec s.dec.counted)
  else .next s

/-- DEC_EXHAUST, R144: no byte is left (the loop of R130 ends at pos = L): return (0, L, none). -/
def execDecExhaust (s : State) : Host.Outcome State Fault Refusal :=
  match s.dec.buf with
  | none => .next s
  | some buf => if buf.length ≤ s.dec.pos then .next (s.endDecode (Result.invalid buf.length)) else .next s

end Sys2Proof.Machine
end

