-- ==== Sys2Proof/Machine/Encoder.lean ====
section
/-! DEFINITION. The byte-level steps of the encoder unit (40_encoder.md R102 to R106). A step whose guard does not hold is not
taken: the state stays as it is (R103, R105; log 9). -/

namespace Sys2Proof.Machine

/-- The byte-serial ENCODE is issued: the operand check (R71), then the unit holds pkt with enc_state = IDLE, ready for ENC_START
(R49b, R100; log 10). -/
def beginEncode (pkt : List Byte) (s : State) : Host.Outcome State Fault Refusal :=
  match pktRefused s.cfg pkt with
  | some f => .fault f
  | none => .next { s with enc := { EncUnit.idle with pkt := some pkt } }

/-- ENC_START, R102: from IDLE, with an ENCODE in progress (the table's "enc_state IDLE -> BODY"), write S at index 0 and enter
BODY. -/
def execEncStart (s : State) : Host.Outcome State Fault Refusal :=
  if s.enc.st = .idle ∧ s.enc.pkt.isSome then
    s.withEnc (EncUnit.put s.cfg
      { s.enc with st := .body, len := 0, i := 0, trunc := false } s.cfg.startByte)
  else .next s

/-- ENC_PLAIN, R103: b is the byte at enc_i, b ∉ R and enc_len + 2 <= C: copy it. -/
def execEncPlain (b : Byte) (s : State) : Host.Outcome State Fault Refusal :=
  if s.enc.sees s.cfg b ∧ b ∉ s.cfg.reserved ∧ s.enc.len + 2 ≤ s.cfg.frameCap then s.appendUnit [b]
  else .next s

/-- R104 for the byte b: b is the byte at enc_i, b ∈ R and enc_len + 3 <= C: write the pair X, esc(b). -/
def encEscape (b : Byte) (s : State) : Host.Outcome State Fault Refusal :=
  if s.enc.sees s.cfg b ∧ b ∈ s.cfg.reserved ∧ s.enc.len + 3 ≤ s.cfg.frameCap then
    s.appendUnit [s.cfg.escByte, s.cfg.esc b]
  else .next s

/-- ENC_ESCAPE.S, R104 with b = S. -/
def execEncEscapeS (s : State) : Host.Outcome State Fault Refusal := encEscape s.cfg.startByte s

/-- ENC_ESCAPE.E, R104 with b = E. -/
def execEncEscapeE (s : State) : Host.Outcome State Fault Refusal := encEscape s.cfg.endByte s

/-- ENC_ESCAPE.X, R104 with b = X. -/
def execEncEscapeX (s : State) : Host.Outcome State Fault Refusal := encEscape s.cfg.escByte s

/-- ENC_DROP, R105: the unit of the byte at enc_i does not fit: enc_trunc <- true. -/
def execEncDrop (s : State) : Host.Outcome State Fault Refusal :=
  match s.enc.cur s.cfg with
  | none => .next s
  | some b =>
    if s.enc.sees s.cfg b ∧ ¬ s.enc.fits s.cfg b then .next { s with enc := { s.enc with trunc := true } }
    else .next s

/-- ENC_FINISH, R106: in BODY with enc_i = N or enc_trunc: write E, SinkEmit(enc_buf[0..enc_len)), IDLE. The working state no
longer exists then (10_state.md R25). -/
def execEncFinish (s : State) : Host.Outcome State Fault Refusal :=
  if s.enc.st = .body ∧ (s.enc.i = s.cfg.packetSize ∨ s.enc.trunc = true) then
    match s.enc.put s.cfg s.cfg.endByte with
    | none => .fault .outOfBounds
    | some u => .next (({ s with enc := EncUnit.idle } : State).emit (u.buf.slice u.len))
  else .next s

end Sys2Proof.Machine
end

