-- ==== Sys2Proof/Machine/Frame.lean ====
section
/-! DEFINITION. The two pure functions of the codec: EncodeFrame (40_encoder.md R101) and the DECODE loop
(41_decoder.md R130 to R148). They are written from the operations' own pseudocode and share nothing with the byte-level steps but
the unit, the classes and the checks; that the steps' fold is the operation is an obligation. -/

namespace Sys2Proof.Machine

/-- The loop of EncodeFrame from enc_len = `len` on: a unit is appended while it and the end marker fit; at the first one
that does not, all remaining packet bytes are dropped (R101, R105). -/
def encodeBody (c : Config) (len : Nat) : List Byte → List Byte
  | [] => []
  | b :: bs =>
    if len + (c.unit b).length + 1 ≤ c.frameCap then
      c.unit b ++ encodeBody c (len + (c.unit b).length) bs
    else []

/-- EncodeFrame(p), R101: the start marker, the units that fit, the end marker. -/
def encodeFrame (c : Config) (p : List Byte) : List Byte :=
  c.startByte :: encodeBody c 1 p ++ [c.endByte]

/-- The working values of a DECODE as its pseudocode has them (R130, R132): `stored` is asm[0..idx). -/
structure ParseState where
  st : DecState
  stored : List Byte
  ovf : Bool
  pos : Nat
deriving DecidableEq, Repr

/-- R132: every DECODE begins with SCAN, idx = 0, ovf = false, pos = 0. -/
def ParseState.initial : ParseState := { st := .scan, stored := [], ovf := false, pos := 0 }

/-- Store(v), R145. -/
def ParseState.store (c : Config) (q : ParseState) (v : Byte) : ParseState :=
  if q.stored.length < c.packetSize then { q with stored := q.stored ++ [v] } else { q with ovf := true }

/-- Finish(pos), R146. -/
def ParseState.finish (c : Config) (q : ParseState) : Result :=
  if q.ovf = false ∧ q.stored.length = c.packetSize then
    { valid := true, consumed := q.pos, pkt := some q.stored }
  else Result.invalid q.pos

/-- One pass of the loop on the byte b, after it is counted: the new working values, or the result that ends the DECODE
(the case of R130). -/
def parseByte (c : Config) (q : ParseState) (b : Byte) : ParseState ⊕ Result :=
  match q.st, c.decClass b with
  | .scan, .markS => .inl { q with st := .body }
  | .scan, _ => .inl q
  | .body, .markX => .inl { q with st := .escd }
  | .body, .markE => .inr (q.finish c)
  | .body, _ => .inl (q.store c b)
  | .escd, .escS => .inl { q.store c (c.unesc b) with st := .body }
  | .escd, .escE => .inl { q.store c (c.unesc b) with st := .body }
  | .escd, .escX => .inl { q.store c (c.unesc b) with st := .body }
  | .escd, .markE =>
    match c.escEndPolicy with
    | .terminate => .inr (Result.invalid q.pos)
    | .drain => .inl { q with st := .drain }
  | .escd, _ => .inl { q with st := .drain }
  | .drain, .markE => .inr (Result.invalid q.pos)
  | .drain, _ => .inl q

/-- The loop of R130 over the bytes not yet inspected; when they run out the parse is invalid with every byte counted (R144). -/
def parseFrom (c : Config) (q : ParseState) : List Byte → Result
  | [] => Result.invalid q.pos
  | b :: rest =>
    match parseByte c { q with pos := q.pos + 1 } b with
    | .inl q' => parseFrom c q' rest
    | .inr r => r

/-- DECODE(buf) as a function of the buffer and the parameters (R130, R150). -/
def decodeFrame (c : Config) (buf : List Byte) : Result :=
  parseFrom c ParseState.initial buf

end Sys2Proof.Machine
end

