-- ==== Sys2Proof/Machine/Port.lean ====
section
/-! DEFINITION. The operations of the port at transaction level (30_encoding.md R70, D1): each is one atomic step. ENCODE and DECODE
leave the byte-serial units alone; `step` never runs one while its unit is busy (R50, Machine/Fetch.lean). -/

namespace Sys2Proof.Machine

/-- NOP: no state changes, and no event or result is made (42_control.md R171). -/
def execNop (s : State) : Host.Outcome State Fault Refusal := .next s

/-- ENCODE: the operand check, then SINK_BOUND, then one SinkEmit of EncodeFrame(pkt) (40_encoder.md R100; order R184). -/
def execEncode (pkt : List Byte) (s : State) : Host.Outcome State Fault Refusal :=
  match pktRefused s.cfg pkt with
  | some f => .fault f
  | none => if s.sinkBound then .next (s.emit (encodeFrame s.cfg pkt)) else .next s

/-- DECODE: the operand check, then the result of the parse; no state of the block survives (41_decoder.md R130, 10_state.md R27). -/
def execDecode (buf : List Byte) (s : State) : Host.Outcome State Fault Refusal :=
  match bufRefused s.cfg buf with
  | some f => .fault f
  | none => .next (s.give (decodeFrame s.cfg buf))

/-- BIND_SINK: SINK_BOUND <- v (42_control.md R170); Fault 3 while an ENCODE is in progress (R204). -/
def execBindSink (v : Bool) (s : State) : Host.Outcome State Fault Refusal :=
  if s.enc.busy then .fault .bindRace else .next { s with sinkBound := v }

/-- ENC_NOSINK: after the operand check, with SINK_BOUND = 0 no SinkEmit is made and no state changes (40_encoder.md R107); with
SINK_BOUND = 1 the row is not selected and nothing happens (log 9). -/
def execEncNosink (pkt : List Byte) (s : State) : Host.Outcome State Fault Refusal :=
  match pktRefused s.cfg pkt with
  | some f => .fault f
  | none => .next s

end Sys2Proof.Machine
end

