-- ==== Sys2Proof/Machine/Dispatch.lean ====
section
/-! DEFINITION. One arm per instruction: the row of spec/opcode_table.json and the meaning it has. -/

namespace Sys2Proof.Machine

def exec (i : Instr) (s : State) : Host.Outcome State Fault Refusal :=
  match i with
  | .nop => Sys2Proof.Machine.execNop s
  | .encode pkt => Sys2Proof.Machine.execEncode pkt s
  | .decode buf => Sys2Proof.Machine.execDecode buf s
  | .bindSink v => Sys2Proof.Machine.execBindSink v s
  | .encNosink pkt => Sys2Proof.Machine.execEncNosink pkt s
  | .encStart => Sys2Proof.Machine.execEncStart s
  | .encEscapeS => Sys2Proof.Machine.execEncEscapeS s
  | .encEscapeE => Sys2Proof.Machine.execEncEscapeE s
  | .encEscapeX => Sys2Proof.Machine.execEncEscapeX s
  | .encPlain b => Sys2Proof.Machine.execEncPlain b s
  | .encDrop => Sys2Proof.Machine.execEncDrop s
  | .encFinish => Sys2Proof.Machine.execEncFinish s
  | .decScanStart => Sys2Proof.Machine.execDecScanStart s
  | .decScanSkip b => Sys2Proof.Machine.execDecScanSkip b s
  | .decBodyEsc => Sys2Proof.Machine.execDecBodyEsc s
  | .decBodyEnd => Sys2Proof.Machine.execDecBodyEnd s
  | .decBodyData b => Sys2Proof.Machine.execDecBodyData b s
  | .decEscS => Sys2Proof.Machine.execDecEscS s
  | .decEscE => Sys2Proof.Machine.execDecEscE s
  | .decEscX => Sys2Proof.Machine.execDecEscX s
  | .decEscEnd => Sys2Proof.Machine.execDecEscEnd s
  | .decEscBad b => Sys2Proof.Machine.execDecEscBad b s
  | .decDrainEnd => Sys2Proof.Machine.execDecDrainEnd s
  | .decDrainSkip b => Sys2Proof.Machine.execDecDrainSkip b s
  | .decExhaust => Sys2Proof.Machine.execDecExhaust s

end Sys2Proof.Machine
end

