-- ==== Sys2Proof/Machine/Fetch.lean ====
section
/-! DEFINITION. Whose turn it is, what is presented then, and what a turn does (20_memory.md R49 and R50, log 3 and log 10). The block
fetches no program (R52): the next thing to happen is the head of the host's inputs, unless an operation waits for its unit. -/

namespace Sys2Proof.Machine

/-- What the encoder unit presents: the conditions of the rows of R102 to R106. -/
def encoderPresent (c : Config) (u : EncUnit) : Present :=
  match u.st with
  | .idle => if u.pkt.isSome then .encoderStart else .encoderIdle
  | .body =>
    if u.i = c.packetSize ∨ u.trunc = true then .encoderFinish
    else
      match u.cur c with
      | some b => .encoderByte b (decide (u.fits c b))
      | none => .encoderIdle
  | .done => .encoderIdle

/-- What the decoder unit presents: its state with the next byte, or the end of the buffer (R133, R144). -/
def decoderPresent (u : DecUnit) : Present :=
  match u.buf with
  | none => .decoderIdle
  | some buf =>
    match buf[u.pos]? with
    | some b => .decoderByte u.st b
    | none => .decoderEnd u.st

/-- The unit an operation on the port waits for: an ENCODE for a busy encoder, a DECODE for a busy decoder; the next operation of a
unit starts only after the one before is complete (R49b, R50). -/
def blockedBy (s : State) (w : PortWord) : Option Input :=
  if w.op = 1 ∧ s.enc.busy = true then some .encoderTurn
  else if w.op = 2 ∧ s.dec.busy = true then some .decoderTurn
  else none

/-- The turn that comes next, and the state with its input taken. A waiting operation stays at the head while its unit takes a turn.
With no input, the unit in progress goes on (R209), the encoder first (DESIGN CHOICE, unsafe: log 3), and an idle block sees no
request (R171, R201). -/
def schedule (s : State) : Input × State :=
  match s.inputs with
  | [] =>
    (if s.enc.busy then .encoderTurn
     else if s.dec.busy then .decoderTurn
     else .request PortWord.quiet, s)
  | .request w :: rest =>
    match blockedBy s w with
    | some turn => (turn, s)
    | none => (.request w, { s with inputs := rest })
  | .serial w :: rest =>
    match blockedBy s w with
    | some turn => (turn, s)
    | none => (.serial w, { s with inputs := rest })
  | .encoderTurn :: rest => (.encoderTurn, { s with inputs := rest })
  | .decoderTurn :: rest => (.decoderTurn, { s with inputs := rest })
  | .reset :: rest => (.reset, { s with inputs := rest })
  | .changeBuf :: rest => (.changeBuf, { s with inputs := rest })
  | .shareDest :: rest => (.shareDest, { s with inputs := rest })

/-- Runs the instruction presented; a unit with no operation in progress has none and rests (R192; log 9). -/
def run (p : Present) (s : State) : Host.Outcome State Fault Refusal :=
  match decode s.cfg p with
  | .ok i => exec i s
  | .error _ => .next s

/-- An operation presented to the byte-serial realisation: ENCODE (with a sink bound) and DECODE are taken in to be worked byte by byte;
NOP, BIND_SINK and ENC_NOSINK have no byte-level steps and are performed at once (D1, log 10). -/
def serialOp (w : PortWord) (s : State) : Host.Outcome State Fault Refusal :=
  if w.op = 1 ∧ s.sinkBound = true then beginEncode w.data s
  else if w.op = 2 then beginDecode w.data s
  else run (.port s.sinkBound w) s

/-- R205, R182 code 4, for a change of buf: a fault while a DECODE reads it; between DECODEs there is no such buffer. -/
def bufferHazard (s : State) : Host.Outcome State Fault Refusal :=
  if s.dec.busy then .fault .bufferRace else .next s

/-- What one turn does. Two decoders sharing a destination is Fault 4 whether or not a DECODE is in progress (R182 code 4, R205). -/
def perform (a : Input) (s : State) : Host.Outcome State Fault Refusal :=
  match a with
  | .request w => run (.port s.sinkBound w) s
  | .serial w => serialOp w s
  | .encoderTurn => run (encoderPresent s.cfg s.enc) s
  | .decoderTurn => run (decoderPresent s.dec) s
  | .reset => .next s.applyReset
  | .changeBuf => bufferHazard s
  | .shareDest => .fault .bufferRace

/-- The state in which the next turn presents `p`, for the presentations of the opcode table's words (`tablePresent`): RC, whose values
the words are, the unit in the row's state with the byte next, and the input at the head (log 11). -/
def State.placed (s : State) : Present → State
  | .port bound w =>
    { s with
      cfg := Config.rc
      sinkBound := if w.op = 1 then bound else s.sinkBound
      enc := if w.op = 1 then EncUnit.idle else s.enc
      dec := if w.op = 2 then DecUnit.idle else s.dec
      inputs := .request w :: s.inputs }
  | .encoderByte b _ =>
    { s with
      cfg := Config.rc
      sinkBound := true
      enc :=
        { st := .body
          pkt := some (List.replicate Config.rc.packetSize b)
          buf := [(0, Config.rc.startByte)]
          len := 1
          i := 0
          trunc := false }
      inputs := .encoderTurn :: s.inputs }
  | .decoderByte st b =>
    { s with
      cfg := Config.rc
      dec :=
        { st := st
          buf := some [Config.rc.startByte, Config.rc.escByte, b]
          asm := []
          idx := 0
          ovf := false
          pos := 2 }
      inputs := .decoderTurn :: s.inputs }
  | .encoderIdle => s
  | .encoderStart => s
  | .encoderFinish => s
  | .decoderIdle => s
  | .decoderEnd _ => s

end Sys2Proof.Machine
end

