-- ==== Sys2Proof/Machine/Step.lean ====
section
/-! DEFINITION. One step of the machine, and how a word of the opcode table is put where the next step finds it. -/

namespace Sys2Proof.Machine

/-- A configuration that breaks a constraint has no step (00_scope.md R8, Fault 1); otherwise the next turn is taken. -/
def step (s : State) : Host.Outcome State Fault Refusal :=
  match s.cfg.broken with
  | some k => .fault (.configRefused k)
  | none => perform (schedule s).1 (schedule s).2

/-- `s` with the instruction of a word of spec/opcode_table.json placed to be what the next step runs. -/
def State.withFetchWord (s : State) (nbits w : Nat) : State :=
  match tablePresent nbits w with
  | none => s
  | some p => s.placed p

end Sys2Proof.Machine
end

