-- ==== Sys2Proof/Safety.lean ====
section
/-! DEFINITION. What a sound state of the block is, in the terms claims use: the bounds of 10_state.md R22, R25 and R26, the working
state existing only while its operation is in progress, and only written bytes counted. -/

namespace Sys2Proof.Machine

/-- The encoder's part of the invariant: R25's ranges, R43's bound, and SINK_BOUND = 1 whenever an ENCODE is in progress. -/
structure EncUnit.Inv (c : Config) (bound : Bool) (u : EncUnit) : Prop where
  /-- No ENCODE in progress: the unit is idle (R30). -/
  atRest : u.pkt = none → u = EncUnit.idle
  /-- An ENCODE in progress holds N bytes and has found a sink bound (R100). -/
  accepted : ∀ p, u.pkt = some p → p.length = c.packetSize ∧ bound = true
  /-- Before ENC_START nothing is written. -/
  waiting : u.st = .idle → u.len = 0 ∧ u.i = 0 ∧ u.trunc = false
  /-- DONE is left in the step that enters it (R106). -/
  notDone : u.st ≠ .done
  /-- Exactly enc_buf[0..enc_len) is written, in canonical form. -/
  written : u.buf.map Prod.fst = List.range u.len
  /-- In BODY the start marker is written and the end marker has room (R101). -/
  room : u.st = .body → 1 ≤ u.len ∧ u.len + 1 ≤ c.frameCap
  /-- enc_i runs 0..N (R22). -/
  index : u.i ≤ c.packetSize

/-- The decoder's part of the invariant: R26's ranges and R42's bound. -/
structure DecUnit.Inv (c : Config) (u : DecUnit) : Prop where
  /-- No DECODE in progress: the unit is idle (R27). -/
  atRest : u.buf = none → u = DecUnit.idle
  /-- A DECODE in progress holds at most M bytes, and pos runs 0..L (R22, R40). -/
  accepted : ∀ b, u.buf = some b → c.bufFits b.length = true ∧ u.pos ≤ b.length
  /-- Exactly asm[0..idx) is written, in canonical form. -/
  written : u.asm.map Prod.fst = List.range u.idx
  /-- idx runs 0..N (R42). -/
  index : u.idx ≤ c.packetSize
  /-- ovf is set only by a store that found idx = N (R145). -/
  overflow : u.ovf = true → u.idx = c.packetSize
  /-- In SCAN nothing is stored yet (R134, R135). -/
  scanning : u.st = .scan → u.idx = 0 ∧ u.ovf = false

/-- The invariant of the machine; it holds at reset and every step keeps it (stated as obligations). -/
structure State.Inv (s : State) : Prop where
  enc : s.enc.Inv s.cfg s.sinkBound
  dec : s.dec.Inv s.cfg

/-- The byte-serial encoder is in BODY, has dropped nothing, and b is the packet byte at enc_i of its operand p (the guard that R103
to R105 have in common, 40_encoder.md). -/
def State.EncoderAt (s : State) (p : List Byte) (b : Byte) : Prop :=
  s.enc.st = .body ∧ s.enc.trunc = false ∧ s.enc.pkt = some p ∧ s.enc.i < s.cfg.packetSize ∧ p[s.enc.i]? = some b

/-- The byte-serial decoder is in the state `st` and b is the byte of its operand `buf` at pos (41_decoder.md R133). -/
def State.DecoderAt (s : State) (st : DecState) (buf : List Byte) (b : Byte) : Prop :=
  s.dec.st = st ∧ s.dec.buf = some buf ∧ buf[s.dec.pos]? = some b

/-- The four faults of 60_exceptions.md R182 by code; the model's own fault has none. -/
def Fault.code : Fault → Option Nat
  | .configRefused _ => some 1
  | .operandRefused _ _ => some 2
  | .bindRace => some 3
  | .bufferRace => some 4
  | .outOfBounds => none

end Sys2Proof.Machine

namespace Sys2Proof

/-- The rows the encoder unit performs: ENCODE, with or without a sink, and the steps of R102 to R106. -/
def Instr.isEncoderRow : Instr → Bool
  | .nop => false
  | .encode _ => true
  | .decode _ => false
  | .bindSink _ => false
  | .encNosink _ => true
  | .encStart => true
  | .encEscapeS => true
  | .encEscapeE => true
  | .encEscapeX => true
  | .encPlain _ => true
  | .encDrop => true
  | .encFinish => true
  | .decScanStart => false
  | .decScanSkip _ => false
  | .decBodyEsc => false
  | .decBodyEnd => false
  | .decBodyData _ => false
  | .decEscS => false
  | .decEscE => false
  | .decEscX => false
  | .decEscEnd => false
  | .decEscBad _ => false
  | .decDrainEnd => false
  | .decDrainSkip _ => false
  | .decExhaust => false

/-- The rows the decoder unit performs: DECODE and the steps of R134 to R144. -/
def Instr.isDecoderRow : Instr → Bool
  | .nop => false
  | .encode _ => false
  | .decode _ => true
  | .bindSink _ => false
  | .encNosink _ => false
  | .encStart => false
  | .encEscapeS => false
  | .encEscapeE => false
  | .encEscapeX => false
  | .encPlain _ => false
  | .encDrop => false
  | .encFinish => false
  | .decScanStart => true
  | .decScanSkip _ => true
  | .decBodyEsc => true
  | .decBodyEnd => true
  | .decBodyData _ => true
  | .decEscS => true
  | .decEscE => true
  | .decEscX => true
  | .decEscEnd => true
  | .decEscBad _ => true
  | .decDrainEnd => true
  | .decDrainSkip _ => true
  | .decExhaust => true

end Sys2Proof

namespace Sys2Proof.Machine

/-- A pass of the caller's resynchronisation loop over `buf` starts at the offset o (41_decoder.md R152): the first at 0, the next after
a pass that was invalid and not at the end, `consumed` further on. No pass that returned valid = 1 is followed by another. -/
inductive PassAt (c : Config) (buf : List Byte) : Nat → Prop where
  | first : PassAt c buf 0
  | next (o : Nat) (h : PassAt c buf o) (hi : (decodeFrame c (buf.drop o)).valid = false) (ho : o ≠ buf.length) :
      PassAt c buf (o + (decodeFrame c (buf.drop o)).consumed)

end Sys2Proof.Machine
end

