-- ==== Sys2Proof/Certificates/Slice0/Obligations.lean ====
section
/-! DEFINITION. The statements for the provers, one `def Obligations.<Name> : Prop` each, listed in OBLIGATIONS.json. -/

open Sys2Proof Sys2Proof.Machine

/-- For every configuration c, the machine right after reset holds c, SINK_BOUND = 0, enc_state = IDLE and no ENCODE or
DECODE in progress; the decoder's named reset values are SCAN, 0, false, 0 (between operations these are the model's
choice, log entry 5), and State.reset is that machine for the configuration the block was built with. The packet size
N of every configuration is at least 5, and every such N is some configuration's. Rests on 10_state.md section 6
(R32); 70_reset_and_hazards.md section 1 (R200, R201); 00_scope.md section 3 (R7; R9, derived by the spec). -/
def Obligations.ResetHasNoSinkAndIdleUnits : Prop :=
  (∀ c : Config,
    (State.resetOf c).cfg = c ∧ (State.resetOf c).sinkBound = false ∧
    (State.resetOf c).enc.st = .idle ∧ (State.resetOf c).enc.pkt = none ∧
    (State.resetOf c).dec.st = .scan ∧ (State.resetOf c).dec.buf = none ∧
    (State.resetOf c).dec.idx = 0 ∧ (State.resetOf c).dec.ovf = false ∧ (State.resetOf c).dec.pos = 0) ∧
  State.reset = State.resetOf Config.block ∧
  (∀ c : Config, 5 ≤ c.packetSize) ∧ ∀ n, 5 ≤ n → ∃ c : Config, c.packetSize = n

/-- When reset is the next input of an admitted machine, the step goes on with SINK_BOUND = 0, enc_state = IDLE, no ENCODE
and no DECODE in progress and the parameters unchanged; no SinkEmit is made and no result is returned, and with no
further input the next step changes nothing: nothing of the abandoned operation goes on. Only a reissued operation, a
later input, does. That the logs and the later inputs are kept is the model's choice (log entry 16). Rests on
70_reset_and_hazards.md section 1 (R200; R201, derived by the spec). -/
def Obligations.ResetAbandonsWhatIsInProgress : Prop :=
  ∀ (s : State) (rest : List Input), s.cfg.Admitted → s.inputs = .reset :: rest →
    ∃ t, step s = .next t ∧ t.sinkBound = false ∧ t.enc.st = .idle ∧ t.enc.pkt = none ∧ t.dec.buf = none ∧
      t.cfg = s.cfg ∧ t.sunk = s.sunk ∧ t.results = s.results ∧ t.inputs = rest ∧
      (rest = [] → step t = .next t)

/-- With K1 to K4 written out: if all hold, no step answers ConfigRefused; if one does not, every step answers
ConfigRefused with a constraint that is broken (never a next state). (R8.) -/
def Obligations.OnlyAdmittedConfigurationsStep : Prop :=
  ∀ s : State,
    let S := s.cfg.startByte
    let E := s.cfg.endByte
    let X := s.cfg.escByte
    let K := s.cfg.escOffset
    let k1 := S ≠ E ∧ S ≠ X ∧ E ≠ X
    let k2 := K ≠ 0
    let k3 := ∀ q ∈ [S + K, E + K, X + K], q ≠ S ∧ q ≠ E ∧ q ≠ X
    let k4 := 2 ≤ s.cfg.frameCap
    (k1 ∧ k2 ∧ k3 ∧ k4 → ∀ k, step s ≠ .fault (.configRefused k)) ∧
    (¬ (k1 ∧ k2 ∧ k3 ∧ k4) →
      (¬ k1 ∧ step s = .fault (.configRefused .k1)) ∨ (¬ k2 ∧ step s = .fault (.configRefused .k2)) ∨
      (¬ k3 ∧ step s = .fault (.configRefused .k3)) ∨ (¬ k4 ∧ step s = .fault (.configRefused .k4)))

/-- S, E, X, K, N, C, M and P are the same after every step of every state, and a state whose configuration breaks a
constraint has no next state. (R24.) -/
def Obligations.ParametersAreNeverWritten : Prop :=
  ∀ s t : State, step s = .next t → t.cfg = s.cfg ∧ s.cfg.Admitted

/-- If a step changes SINK_BOUND, the input it took was reset (and SINK_BOUND is 0 after it) or an operation with op = 11
(and SINK_BOUND is its operand v after it). Rests on 10_state.md section 2 (R23). -/
def Obligations.OnlyBindSinkAndResetWriteSinkBound : Prop :=
  ∀ s t : State, step s = .next t → t.sinkBound ≠ s.sinkBound →
    ∃ rest, t.inputs = rest ∧
      ((s.inputs = .reset :: rest ∧ t.sinkBound = false) ∨
       (∃ w : PortWord, (s.inputs = .request w :: rest ∨ s.inputs = .serial w :: rest) ∧ w.op = 3 ∧ t.sinkBound = w.v))

/-- State.Inv holds of the reset state of every configuration, and of State.reset. That the working registers and buffers
hold 0, false, SCAN and nothing written there, which State.Inv says of a unit at rest, is the model's choice (log
entry 5): R32 leaves them unspecified. Rests on 10_state.md sections 3 and 6 (R25, R26, R32). -/
def Obligations.InvariantHoldsAtReset : Prop :=
  (∀ c : Config, (State.resetOf c).Inv) ∧ State.reset.Inv

/-- From every state that meets State.Inv, a step that answers a next state answers one that meets it: enc_len <= C with
room for the end marker, enc_i <= N, idx <= N, pos <= L, exactly enc_buf[0..enc_len) and asm[0..idx) written and in
canonical form, DONE never held, the working state idle when no operation is in progress, and SINK_BOUND = 1 while an
ENCODE is. That DONE is never held and that the working state is idle when no operation is in progress are the model's
choice (log entry 5). Rests on 10_state.md sections 1 and 3 (R22, R25, R26); 20_memory.md section 1 (R40 to R43). -/
def Obligations.EveryStepKeepsTheInvariant : Prop :=
  ∀ s t : State, s.Inv → step s = .next t → t.Inv

/-- From a state that meets State.Inv no step answers outOfBounds, the fault of a write to enc_buf at C or more; and there
enc_len <= C, idx <= N, and every index written in enc_buf is below C and in asm below N. Rests on 20_memory.md
section 1 (R42, R43). -/
def Obligations.WorkingBufferWritesStayInBounds : Prop :=
  ∀ s : State, s.Inv →
    step s ≠ .fault .outOfBounds ∧ s.enc.len ≤ s.cfg.frameCap ∧ s.dec.idx ≤ s.cfg.packetSize ∧
    (∀ a b, s.enc.buf.read a = some b → a < s.cfg.frameCap) ∧
    (∀ a b, s.dec.asm.read a = some b → a < s.cfg.packetSize)

/-- For every admitted configuration and every well-formed instruction of any of the 25 rows, with every operand at every
value the row admits, decoding its encoding gives it back. Rests on 30_encoding.md sections 1 and 3 (R62, R63, R70);
40_encoder.md section 2 (R107). -/
def Obligations.DecodeOfEncodeIsTheInstruction : Prop :=
  ∀ (c : Config) (i : Instr), c.Admitted → i.wf c = true → decode c (encode c i) = .ok i

/-- For every admitted configuration, a presentation that decodes to a row other than ENCODE, ENC_NOSINK and DECODE
decodes to a well-formed one: its byte is of its row's class. Decoding checks no size: a decoded ENCODE or ENC_NOSINK
is well formed exactly when its packet is N bytes, a decoded DECODE exactly when its buffer is at most M (R71 refuses
the others when they run). Whatever is decoded, decoding its encoding gives it again. Rests on 30_encoding.md sections
1 and 3 (R62, R63, R70, R71). -/
def Obligations.DecodedBytesAreOfTheirRowsClass : Prop :=
  ∀ (c : Config) (p : Present) (i : Instr), c.Admitted → decode c p = .ok i →
    ((∀ pkt, i ≠ .encode pkt ∧ i ≠ .encNosink pkt) → (∀ buf, i ≠ .decode buf) → i.wf c = true) ∧
    (∀ pkt, i = .encode pkt ∨ i = .encNosink pkt → (i.wf c = true ↔ pkt.length = c.packetSize)) ∧
    (∀ buf, i = .decode buf → (i.wf c = true ↔ ∀ m, c.maxBuf = some m → buf.length ≤ m)) ∧
    decode c (encode c i) = .ok i

/-- For every admitted configuration: the seven classes do not overlap (S, E, X and their escaped forms are six different
bytes), and for every byte in SCAN, BODY, ESCD and DRAIN the row selected is the one of the table; exhaustion in any
state selects DEC_EXHAUST. (R63.) -/
def Obligations.DecoderTransitionMapIsTheTable : Prop :=
  ∀ c : Config, c.Admitted →
    let S := c.startByte
    let E := c.endByte
    let X := c.escByte
    let K := c.escOffset
    [S, E, X, S + K, E + K, X + K].Nodup ∧
    (∀ b, decode c (.decoderByte .scan b) = .ok (if b = S then .decScanStart else .decScanSkip b)) ∧
    (∀ b, decode c (.decoderByte .body b) =
      .ok (if b = X then .decBodyEsc else if b = E then .decBodyEnd else .decBodyData b)) ∧
    (∀ b, decode c (.decoderByte .escd b) =
      .ok (if b = S + K then .decEscS else if b = E + K then .decEscE else if b = X + K then .decEscX
           else if b = E then .decEscEnd else .decEscBad b)) ∧
    (∀ b, decode c (.decoderByte .drain b) = .ok (if b = E then .decDrainEnd else .decDrainSkip b)) ∧
    (∀ st, decode c (.decoderEnd st) = .ok .decExhaust)

/-- For every admitted configuration: b in R selects the ENC_ESCAPE row of that byte and its unit is X, b + K; b outside R
selects ENC_PLAIN and its unit is b alone; a byte of Q is plain; and when the unit does not fit the row is ENC_DROP.
(R62, R64.) -/
def Obligations.EncoderClassesSelectUnits : Prop :=
  ∀ (c : Config) (b : Byte), c.Admitted →
    let S := c.startByte
    let E := c.endByte
    let X := c.escByte
    let K := c.escOffset
    decode c (.encoderByte b true) =
      .ok (if b = S then .encEscapeS else if b = E then .encEscapeE else if b = X then .encEscapeX else .encPlain b) ∧
    decode c (.encoderByte b false) = .ok .encDrop ∧
    c.unit b = (if b = S ∨ b = E ∨ b = X then [X, b + K] else [b]) ∧
    (b = S + K ∨ b = E + K ∨ b = X + K → decode c (.encoderByte b true) = .ok (.encPlain b) ∧ c.unit b = [b])

/-- Every presentation on the port decodes: op 00 is NOP, 01 is ENCODE of the data (ENC_NOSINK when SINK_BOUND = 0), 10 is
DECODE of the data, 11 is BIND_SINK of the line v. That an operation ignores the lines that are not its operands is
the model's choice (log entry 10). Rests on 30_encoding.md section 3 (R70, R72); 40_encoder.md section 2 (R107). -/
def Obligations.OperationPortCodesAreAllAssigned : Prop :=
  ∀ (c : Config) (v : Bool) (data : List Byte) (bound : Bool),
    decode c (.port bound { op := 0b00, v := v, data := data }) = .ok .nop ∧
    decode c (.port true { op := 0b01, v := v, data := data }) = .ok (.encode data) ∧
    decode c (.port false { op := 0b01, v := v, data := data }) = .ok (.encNosink data) ∧
    decode c (.port bound { op := 0b10, v := v, data := data }) = .ok (.decode data) ∧
    decode c (.port bound { op := 0b11, v := v, data := data }) = .ok (.bindSink v)

/-- Op codes 00, 01, 10 and 11 with their operands (01 with a sink bound and without), and RC's bytes 7E, 7F, 7D, 9E, 41
in the states that give them a row, decode to the row's instruction. Rests on 30_encoding.md sections 1 and 3 (R63,
R70); 00_scope.md section 3 (R10). -/
def Obligations.WordsOfTheTableDecode : Prop :=
  decode Config.rc (.port true { op := 0b01, v := false, data := [0x10, 0x7E] }) = .ok (.encode [0x10, 0x7E]) ∧
  decode Config.rc (.port false { op := 0b01, v := false, data := [0x10, 0x7E] }) = .ok (.encNosink [0x10, 0x7E]) ∧
  decode Config.rc (.port true { op := 0b10, v := false, data := [0x7E, 0x7F] }) = .ok (.decode [0x7E, 0x7F]) ∧
  decode Config.rc (.port true { op := 0b00, v := false, data := [] }) = .ok .nop ∧
  decode Config.rc (.port true { op := 0b11, v := true, data := [] }) = .ok (.bindSink true) ∧
  decode Config.rc (.encoderByte 0x7D true) = .ok .encEscapeX ∧
  decode Config.rc (.encoderByte 0x9E true) = .ok (.encPlain 0x9E) ∧
  decode Config.rc (.decoderByte .scan 0x7E) = .ok .decScanStart ∧
  decode Config.rc (.decoderByte .body 0x7F) = .ok .decBodyEnd ∧
  decode Config.rc (.decoderByte .escd 0x9E) = .ok .decEscS ∧
  decode Config.rc (.decoderByte .escd 0x41) = .ok (.decEscBad 0x41) ∧
  decode Config.rc (.decoderByte .drain 0x7F) = .ok .decDrainEnd

/-- In an admitted machine: an operation at the head of the inputs that does not wait for its unit is decoded with
SINK_BOUND and run with the input taken; so is a NOP, a BIND_SINK or an ENCODE with SINK_BOUND = 0 that is presented
to the byte-serial realisation (SerialOperationsBegin says what the other two do there); a turn of the encoder or the
decoder runs the instruction the unit presents, with the input taken. Delivery by an input list is the model's (log
entries 3 and 10). Rests on 30_encoding.md section 3 (R70); 20_memory.md section 3 (R49, R50). -/
def Obligations.StepRunsTheDecodedInstruction : Prop :=
  ∀ (s : State) (rest : List Input), s.cfg.Admitted →
    (∀ w : PortWord, s.inputs = .request w :: rest →
      ¬ (w.op = 1 ∧ (s.enc.pkt ≠ none ∨ s.enc.st ≠ .idle)) → ¬ (w.op = 2 ∧ s.dec.buf ≠ none) →
      ∀ i, decode s.cfg (.port s.sinkBound w) = .ok i → step s = exec i { s with inputs := rest }) ∧
    (∀ w : PortWord, s.inputs = .serial w :: rest →
      w.op = 0 ∨ w.op = 3 ∨ (w.op = 1 ∧ s.sinkBound = false ∧ s.enc.pkt = none ∧ s.enc.st = .idle) →
      ∀ i, decode s.cfg (.port s.sinkBound w) = .ok i → step s = exec i { s with inputs := rest }) ∧
    (s.inputs = .encoderTurn :: rest →
      ∀ i, decode s.cfg (encoderPresent s.cfg s.enc) = .ok i → step s = exec i { s with inputs := rest }) ∧
    (s.inputs = .decoderTurn :: rest →
      ∀ i, decode s.cfg (decoderPresent s.dec) = .ok i → step s = exec i { s with inputs := rest })

/-- In an admitted machine, an ENCODE presented while an ENCODE is in progress (or a DECODE during a DECODE) stays at the
head of the inputs, and the step runs the instruction that the unit in progress presents. R49 and R50 say only that
the next operation starts after the one before is complete; that it waits at the head of the inputs while its unit
takes the turn is the model's choice (log entry 10). Rests on 20_memory.md section 3 (R49, R50). -/
def Obligations.OperationsOfAUnitAreOneAtATime : Prop :=
  ∀ (s : State) (w : PortWord) (rest : List Input) (i : Instr), s.cfg.Admitted →
    (s.inputs = .request w :: rest ∨ s.inputs = .serial w :: rest) →
    (w.op = 1 ∧ (s.enc.pkt ≠ none ∨ s.enc.st ≠ .idle) → decode s.cfg (encoderPresent s.cfg s.enc) = .ok i →
      step s = exec i s) ∧
    (w.op = 2 ∧ s.dec.buf ≠ none → decode s.cfg (decoderPresent s.dec) = .ok i → step s = exec i s)

/-- For every state and every word of at most 8 bits, the step of the state with that word placed is exec of the
instruction decodeTableWord reads from it, with the placed input taken. How a word is placed is the model's choice
(log entry 11). Rests on 30_encoding.md section 3 (R70); opcode_table.json. -/
def Obligations.TheTableWordPlacedIsTheOneRun : Prop :=
  ∀ (s : State) (nbits w : Nat) (i : Instr), decodeTableWord nbits w = some i →
    step (s.withFetchWord nbits w) = exec i { s.withFetchWord nbits w with inputs := s.inputs }

/-- In an admitted machine with both units idle, presenting ENCODE with a sink bound and N bytes leaves the encoder in
IDLE holding pkt, and presenting DECODE with L <= M leaves the decoder in SCAN with idx = 0, ovf = false, pos = 0
holding buf; an operand of the wrong size is Fault 2. Nothing else changes. That the operation is taken in by one step
of its own is the model's choice (log entry 10). Rests on 41_decoder.md section 1 (R132); 30_encoding.md section 3
(R71). -/
def Obligations.SerialOperationsBegin : Prop :=
  ∀ (s : State) (v : Bool) (data : List Byte) (rest : List Input), s.cfg.Admitted →
    s.enc = EncUnit.idle → s.dec = DecUnit.idle →
    (s.inputs = .serial { op := 1, v := v, data := data } :: rest → s.sinkBound = true →
      (data.length = s.cfg.packetSize →
        step s = .next { s with inputs := rest, enc := { s.enc with st := .idle, pkt := some data } }) ∧
      (data.length ≠ s.cfg.packetSize → step s = .fault (.operandRefused .encode data.length))) ∧
    (s.inputs = .serial { op := 2, v := v, data := data } :: rest →
      ((∀ m, s.cfg.maxBuf = some m → data.length ≤ m) →
        ∃ a, step s = .next { s with
          inputs := rest, dec := { st := .scan, buf := some data, asm := a, idx := 0, ovf := false, pos := 0 } }) ∧
      (∀ m, s.cfg.maxBuf = some m → m < data.length → step s = .fault (.operandRefused .decode data.length)))

/-- For every state, exec of NOP answers that state; and an admitted machine with no input and no operation in progress
takes NOP as its step. (R171.) -/
def Obligations.NopChangesNothing : Prop :=
  ∀ s : State, exec .nop s = .next s ∧
    (s.cfg.Admitted → s.inputs = [] → s.enc.pkt = none → s.enc.st = .idle → s.dec.buf = none → step s = .next s)

/-- With no ENCODE in progress, exec of BIND_SINK v answers the state with SINK_BOUND = v, whatever it was (a second bind
overwrites; binding again what is bound changes nothing). An overlap with an ENCODE in progress raises Fault 3.
(R170.) -/
def Obligations.BindSinkWritesSinkBound : Prop :=
  ∀ (s : State) (v : Bool),
    (s.enc.pkt = none → s.enc.st = .idle → exec (.bindSink v) s = .next { s with sinkBound := v }) ∧
    (s.enc.pkt = none → s.enc.st = .idle → s.sinkBound = v → exec (.bindSink v) s = .next s) ∧
    (s.enc.st ≠ .idle → exec (.bindSink v) s = .fault .bindRace)

/-- For every state and packet: a packet that is not N bytes is Fault 2, sink or no sink; with SINK_BOUND = 0 nothing at
all happens; with SINK_BOUND = 1 exactly one event, EncodeFrame(pkt) with its length, is appended to the sink's log
and nothing else changes (SINK_BOUND, both units, the results, the parameters and the inputs are as before). (R100.) -/
def Obligations.EncodeHandsOneFrameToTheSink : Prop :=
  ∀ (s : State) (pkt : List Byte),
    (pkt.length ≠ s.cfg.packetSize → exec (.encode pkt) s = .fault (.operandRefused .encode pkt.length)) ∧
    (pkt.length = s.cfg.packetSize → s.sinkBound = false → exec (.encode pkt) s = .next s) ∧
    (pkt.length = s.cfg.packetSize → s.sinkBound = true →
      exec (.encode pkt) s = .next { s with
        sunk := s.sunk ++ [{ frame := encodeFrame s.cfg pkt, length := (encodeFrame s.cfg pkt).length }] })

/-- With SINK_BOUND = 0 and a packet of N bytes, ENC_NOSINK answers the state unchanged, as ENCODE does; a packet of
another length is Fault 2 first. (R107.) -/
def Obligations.EncodeWithoutSinkDoesNothing : Prop :=
  ∀ (s : State) (pkt : List Byte), s.sinkBound = false →
    (pkt.length = s.cfg.packetSize → exec (.encNosink pkt) s = .next s ∧ exec (.encode pkt) s = .next s) ∧
    (pkt.length ≠ s.cfg.packetSize → exec (.encNosink pkt) s = .fault (.operandRefused .encode pkt.length))

/-- For every state and buffer: with L > M the operation is Fault 2; otherwise exactly one result, that of the parse of
R130's loop, is returned, and SINK_BOUND, both units, the sink's log, the parameters and the inputs are as before.
Rests on 41_decoder.md section 1 (R130); 10_state.md section 3 (R27). -/
def Obligations.DecodeReturnsOneResult : Prop :=
  ∀ (s : State) (buf : List Byte),
    (∀ m, s.cfg.maxBuf = some m → m < buf.length →
      exec (.decode buf) s = .fault (.operandRefused .decode buf.length)) ∧
    ((∀ m, s.cfg.maxBuf = some m → buf.length ≤ m) →
      exec (.decode buf) s = .next { s with results := s.results ++ [decodeFrame s.cfg buf] })

/-- For every admitted configuration and packet p there is a j <= len(p) with EncodeFrame(p) = [S] ++ unit(p[0]) ++ ... ++
unit(p[j-1]) ++ [E]; 1 + the length of those units + 1 is at most C, and no longer prefix has that property. Rests on
40_encoder.md section 1 (the closed form the spec derives in R101). -/
def Obligations.EncodeFrameKeepsTheGreatestPrefixThatFits : Prop :=
  ∀ (c : Config) (p : List Byte), c.Admitted →
    ∃ j, j ≤ p.length ∧
      encodeFrame c p = [c.startByte] ++ (p.take j).flatMap c.unit ++ [c.endByte] ∧
      1 + ((p.take j).flatMap c.unit).length + 1 ≤ c.frameCap ∧
      ∀ j', j' ≤ p.length → 1 + ((p.take j').flatMap c.unit).length + 1 ≤ c.frameCap → j' ≤ j

/-- For every admitted configuration and packet of N bytes: an untruncated frame has length N + 2 + the number of packet
bytes in R, hence between N + 2 and 2N + 2; every frame has 2 <= length <= C. (R66.) -/
def Obligations.FramesAreNeitherShortNorLong : Prop :=
  ∀ (c : Config) (p : List Byte), c.Admitted → p.length = c.packetSize →
    (encodeFrame c p = [c.startByte] ++ p.flatMap c.unit ++ [c.endByte] →
      (encodeFrame c p).length = c.packetSize + 2 + p.countP (fun b => decide (b ∈ c.reserved)) ∧
      c.packetSize + 2 ≤ (encodeFrame c p).length ∧ (encodeFrame c p).length ≤ 2 * c.packetSize + 2) ∧
    2 ≤ (encodeFrame c p).length ∧ (encodeFrame c p).length ≤ c.frameCap

/-- The capacity that a configuration has when none is given is 2N + 2. If C >= 2N + 2, then for every packet of N bytes
EncodeFrame(p) = [S] ++ unit(p[0]) ++ ... ++ unit(p[N-1]) ++ [E]. Rests on 40_encoder.md section 3 (R109(b), derived
by the spec); 30_encoding.md section 2 (R65); 00_scope.md section 3 (R7). -/
def Obligations.DefaultCapacityNeverTruncates : Prop :=
  (∀ (S E X K : Byte) (n : Nat),
    let c : Config := { startByte := S, endByte := E, escByte := X, escOffset := K, packetSizeMinus5 := n }
    c.frameCap = 2 * c.packetSize + 2) ∧
  ∀ (c : Config) (p : List Byte), 2 * c.packetSize + 2 ≤ c.frameCap → p.length = c.packetSize →
    encodeFrame c p = [c.startByte] ++ p.flatMap c.unit ++ [c.endByte]

/-- For every admitted configuration and packet, the bytes of EncodeFrame(p) between its first and its last byte hold
neither S nor E, and each X among them has a byte of Q directly after it, still inside the body. Rests on
30_encoding.md section 2 (R67, derived by the spec); 40_encoder.md section 3 (R109(e)). -/
def Obligations.FrameBodiesAreStuffed : Prop :=
  ∀ (c : Config) (p : List Byte), c.Admitted →
    ∃ body, encodeFrame c p = [c.startByte] ++ body ++ [c.endByte] ∧
      c.startByte ∉ body ∧ c.endByte ∉ body ∧
      ∀ k, body[k]? = some c.escByte → ∃ q, body[k + 1]? = some q ∧ q ∈ c.escaped

/-- With enc_state = IDLE, an ENCODE in progress and C >= 1, ENC_START answers a next state in BODY with enc_len = 1,
enc_i = 0, enc_trunc = false, the byte S at index 0 of enc_buf and every other index as before; the operand,
SINK_BOUND, the decoder, the logs, the parameters and the inputs are unchanged, whatever pkt holds. (R102.) -/
def Obligations.EncStartWritesTheStartMarker : Prop :=
  ∀ (s : State) (p : List Byte), s.enc.st = .idle → s.enc.pkt = some p → 1 ≤ s.cfg.frameCap →
    ∃ m, exec .encStart s = .next { s with
        enc := { st := .body, pkt := some p, buf := m, len := 1, i := 0, trunc := false } } ∧
      m.read 0 = some s.cfg.startByte ∧ ∀ a, a ≠ 0 → m.read a = s.enc.buf.read a

/-- In BODY, not truncated, with b = p[enc_i]: if b is outside R and enc_len + 2 <= C, b is written at index enc_len and
nowhere else, enc_len and enc_i advance by one, and nothing else changes (a byte of Q is no exception); if b is in R
or there is no room the state is unchanged. (R103.) -/
def Obligations.EncPlainCopiesThePacketByte : Prop :=
  ∀ (s : State) (p : List Byte) (b : Byte), s.EncoderAt p b →
    (b ≠ s.cfg.startByte ∧ b ≠ s.cfg.endByte ∧ b ≠ s.cfg.escByte ∧ s.enc.len + 2 ≤ s.cfg.frameCap →
      ∃ m, exec (.encPlain b) s = .next { s with
          enc := { s.enc with buf := m, len := s.enc.len + 1, i := s.enc.i + 1 } } ∧
        m.read s.enc.len = some b ∧ ∀ a, a ≠ s.enc.len → m.read a = s.enc.buf.read a) ∧
    (b = s.cfg.startByte ∨ b = s.cfg.endByte ∨ b = s.cfg.escByte ∨ s.cfg.frameCap < s.enc.len + 2 →
      exec (.encPlain b) s = .next s)

/-- In BODY, not truncated, with the reserved byte b = p[enc_i] (S, E or X, each its own row): if enc_len + 3 <= C, X is
written at enc_len and b + K (modulo 256) at enc_len + 1, no other index changes, enc_len advances by two and enc_i by
one, and nothing else changes; without the room the state is unchanged. (R104.) -/
def Obligations.EncEscapeWritesThePair : Prop :=
  ∀ (s : State) (p : List Byte) (b : Byte) (i : Instr), s.EncoderAt p b →
    (i = .encEscapeS ∧ b = s.cfg.startByte) ∨ (i = .encEscapeE ∧ b = s.cfg.endByte) ∨
      (i = .encEscapeX ∧ b = s.cfg.escByte) →
    (s.enc.len + 3 ≤ s.cfg.frameCap →
      ∃ m, exec i s = .next { s with
          enc := { s.enc with buf := m, len := s.enc.len + 2, i := s.enc.i + 1 } } ∧
        m.read s.enc.len = some s.cfg.escByte ∧ m.read (s.enc.len + 1) = some (b + s.cfg.escOffset) ∧
        ∀ a, a ≠ s.enc.len → a ≠ s.enc.len + 1 → m.read a = s.enc.buf.read a) ∧
    (s.cfg.frameCap < s.enc.len + 3 → exec i s = .next s)

/-- In BODY, not truncated, with b = p[enc_i]: if enc_len + len(unit(b)) + 1 > C, ENC_DROP sets enc_trunc and changes
nothing else, and in the state after it no ENC_PLAIN or ENC_ESCAPE changes anything, whatever their byte (a byte that
would still fit is dropped too); if the unit fits, ENC_DROP leaves the state as it is. (R105.) -/
def Obligations.EncDropTruncates : Prop :=
  ∀ (s : State) (p : List Byte) (b : Byte), s.EncoderAt p b →
    (s.cfg.frameCap < s.enc.len + (s.cfg.unit b).length + 1 →
      ∃ t, exec .encDrop s = .next t ∧ t = { s with enc := { s.enc with trunc := true } } ∧
        (∀ b', exec (.encPlain b') t = .next t) ∧ exec .encEscapeS t = .next t ∧ exec .encEscapeE t = .next t ∧
        exec .encEscapeX t = .next t) ∧
    (s.enc.len + (s.cfg.unit b).length + 1 ≤ s.cfg.frameCap → exec .encDrop s = .next s)

/-- In BODY with enc_i = N or enc_trunc, and enc_len < C: ENC_FINISH answers a next state in IDLE with no ENCODE in
progress and one more event, a frame of enc_len + 1 bytes that holds what enc_buf[0..enc_len) holds and E last, with
its length; SINK_BOUND, the decoder, the results, the parameters and the inputs are unchanged. In BODY the unit
presents ENC_FINISH exactly when enc_i = N or enc_trunc holds. (R106.) -/
def Obligations.EncFinishEmitsTheBalancedFrame : Prop :=
  ∀ s : State, s.enc.st = .body →
    (s.enc.i = s.cfg.packetSize ∨ s.enc.trunc = true → s.enc.len < s.cfg.frameCap →
      ∃ f u, exec .encFinish s = .next { s with enc := u, sunk := s.sunk ++ [{ frame := f, length := s.enc.len + 1 }] } ∧
        u.st = .idle ∧ u.pkt = none ∧ f.length = s.enc.len + 1 ∧ f[s.enc.len]? = some s.cfg.endByte ∧
        ∀ a b, a < s.enc.len → s.enc.buf.read a = some b → f[a]? = some b) ∧
    (encoderPresent s.cfg s.enc = .encoderFinish ↔ s.enc.i = s.cfg.packetSize ∨ s.enc.trunc = true)

/-- In an admitted machine with the encoder in BODY, not truncated and enc_i < N: the encoder's turn appends the whole
unit of p[enc_i] (the written bytes read back as the frame so far followed by the unit) and advances enc_i when the
unit and the end marker fit, and otherwise only sets enc_trunc. Rests on 40_encoder.md section 1 (R101);
60_exceptions.md section 2 (R184). -/
def Obligations.EncoderTurnIsOnePassOfTheLoop : Prop :=
  ∀ (s : State) (p : List Byte) (b : Byte) (rest : List Input), s.cfg.Admitted → s.EncoderAt p b →
    s.inputs = .encoderTurn :: rest →
    (s.enc.len + (s.cfg.unit b).length + 1 ≤ s.cfg.frameCap →
      ∃ m, step s = .next { s with
          inputs := rest
          enc := { s.enc with buf := m, len := s.enc.len + (s.cfg.unit b).length, i := s.enc.i + 1 } } ∧
        m.slice (s.enc.len + (s.cfg.unit b).length) = s.enc.buf.slice s.enc.len ++ s.cfg.unit b) ∧
    (s.cfg.frameCap < s.enc.len + (s.cfg.unit b).length + 1 →
      step s = .next { s with inputs := rest, enc := { s.enc with trunc := true } })

/-- From an admitted machine that meets State.Inv, with no ENCODE in progress, a sink bound and one byte-serial ENCODE of
N bytes as the only input, some k <= N + 3 steps (taking the operand in, ENC_START, the packet bytes or the drop,
ENC_FINISH) end in exactly the state that one atomic ENCODE gives: one event with EncodeFrame(pkt), nothing else
changed. The bound counts the step that takes the operand in (log entry 10), holds beside a DECODE in progress because
the encoder goes first (log entry 3), and the unit at rest holds the values of log entry 5: all three are the model's
choice. Rests on 40_encoder.md sections 1 and 2 (R101 to R106); 00_scope.md section 1 (R3); 70_reset_and_hazards.md
section 4 (R208). -/
def Obligations.ByteSerialEncodeIsEncode : Prop :=
  ∀ (s : State) (v : Bool) (pkt : List Byte), s.cfg.Admitted → s.Inv → s.enc.pkt = none → s.sinkBound = true →
    pkt.length = s.cfg.packetSize → s.inputs = [.serial { op := 1, v := v, data := pkt }] →
    ∃ k, k ≤ s.cfg.packetSize + 3 ∧
      Sys2Proof.core.run k s = Sys2Proof.core.run 1 { s with inputs := [.request { op := 1, v := v, data := pkt }] } ∧
      Sys2Proof.core.run k s = .next { s with
        inputs := []
        sunk := s.sunk ++ [{ frame := encodeFrame s.cfg pkt, length := (encodeFrame s.cfg pkt).length }] }

/-- In SCAN with S next, DEC_SCAN_START answers the state with dec_state = BODY and pos advanced by one; asm, idx, ovf,
buf and everything outside the decoder are unchanged. In another state a next byte S selects another row: it does not
start a frame. (R134.) -/
def Obligations.DecScanStartEntersBody : Prop :=
  ∀ (s : State) (buf : List Byte),
    (s.DecoderAt .scan buf s.cfg.startByte →
      exec .decScanStart s = .next { s with dec := { s.dec with st := .body, pos := s.dec.pos + 1 } }) ∧
    ∀ st, st ≠ .scan → decode s.cfg (.decoderByte st s.cfg.startByte) ≠ .ok .decScanStart

/-- In SCAN with a byte b other than S next (E, X and Q values included), DEC_SCAN_SKIP answers the state with pos
advanced by one and nothing else changed: dec_state stays SCAN. (R135.) -/
def Obligations.DecScanSkipDiscards : Prop :=
  ∀ (s : State) (buf : List Byte) (b : Byte), s.DecoderAt .scan buf b → b ≠ s.cfg.startByte →
    exec (.decScanSkip b) s = .next { s with dec := { s.dec with pos := s.dec.pos + 1 } }

/-- In BODY with X next, DEC_BODY_ESC answers the state with dec_state = ESCD and pos advanced by one and nothing else
changed; an X that was the last byte then ends the parse by exhaustion with every byte counted. (R136.) -/
def Obligations.DecBodyEscEntersEscaped : Prop :=
  ∀ (s : State) (buf : List Byte), s.DecoderAt .body buf s.cfg.escByte →
    ∃ t, exec .decBodyEsc s = .next t ∧ t = { s with dec := { s.dec with st := .escd, pos := s.dec.pos + 1 } } ∧
      (s.dec.pos + 1 = buf.length → ∃ u, exec .decExhaust t = .next { t with
        dec := u, results := t.results ++ [{ valid := false, consumed := buf.length, pkt := none }] })

/-- In BODY with E next, DEC_BODY_END ends the DECODE with one result: with ovf = false and idx = N it is valid, counts
this E, and its packet is the N bytes of asm in index order; otherwise it is invalid, counts this E and carries no
packet (a body too short or too long). The decoder is then free and nothing else changes. (R137, R146.) -/
def Obligations.DecBodyEndReturnsTheLengthCheck : Prop :=
  ∀ (s : State) (buf : List Byte), s.DecoderAt .body buf s.cfg.endByte →
    (s.dec.ovf = false ∧ s.dec.idx = s.cfg.packetSize →
      ∃ u pkt, exec .decBodyEnd s = .next { s with
          dec := u, results := s.results ++ [{ valid := true, consumed := s.dec.pos + 1, pkt := some pkt }] } ∧
        u.buf = none ∧ pkt.length = s.cfg.packetSize ∧
        ∀ a b, a < s.cfg.packetSize → s.dec.asm.read a = some b → pkt[a]? = some b) ∧
    (s.dec.ovf = true ∨ s.dec.idx ≠ s.cfg.packetSize →
      ∃ u, exec .decBodyEnd s = .next { s with
          dec := u, results := s.results ++ [{ valid := false, consumed := s.dec.pos + 1, pkt := none }] } ∧
        u.buf = none)

/-- In BODY with a byte b other than X and E next (S and Q values included), DEC_BODY_DATA counts it; with idx < N it is
written at index idx of asm and nowhere else and idx advances, with idx >= N nothing is written and ovf becomes (or
stays) true. dec_state stays BODY, an ovf that is set stays set, and nothing else changes. (R138, R145.) -/
def Obligations.DecBodyDataStoresVerbatim : Prop :=
  ∀ (s : State) (buf : List Byte) (b : Byte), s.DecoderAt .body buf b → b ≠ s.cfg.escByte → b ≠ s.cfg.endByte →
    (s.dec.idx < s.cfg.packetSize →
      ∃ m, exec (.decBodyData b) s = .next { s with
          dec := { s.dec with asm := m, idx := s.dec.idx + 1, pos := s.dec.pos + 1 } } ∧
        m.read s.dec.idx = some b ∧ ∀ a, a ≠ s.dec.idx → m.read a = s.dec.asm.read a) ∧
    (s.cfg.packetSize ≤ s.dec.idx →
      exec (.decBodyData b) s = .next { s with dec := { s.dec with ovf := true, pos := s.dec.pos + 1 } })

/-- In ESCD with the escaped form v of r next (r = S, E or X, each its own row, v = r + K): the stored value is v - K
modulo 256, which is r; with idx < N it is written at index idx of asm and nowhere else and idx advances, with idx >=
N ovf is set; dec_state becomes BODY, pos advances by one and nothing else changes. (R139.) -/
def Obligations.DecEscUnescapesAndStores : Prop :=
  ∀ (s : State) (buf : List Byte) (r : Byte) (i : Instr),
    (i = .decEscS ∧ r = s.cfg.startByte) ∨ (i = .decEscE ∧ r = s.cfg.endByte) ∨ (i = .decEscX ∧ r = s.cfg.escByte) →
    s.DecoderAt .escd buf (r + s.cfg.escOffset) →
    (s.dec.idx < s.cfg.packetSize →
      ∃ m, exec i s = .next { s with
          dec := { s.dec with st := .body, asm := m, idx := s.dec.idx + 1, pos := s.dec.pos + 1 } } ∧
        m.read s.dec.idx = some (r + s.cfg.escOffset - s.cfg.escOffset) ∧ m.read s.dec.idx = some r ∧
        ∀ a, a ≠ s.dec.idx → m.read a = s.dec.asm.read a) ∧
    (s.cfg.packetSize ≤ s.dec.idx →
      exec i s = .next { s with dec := { s.dec with st := .body, ovf := true, pos := s.dec.pos + 1 } })

/-- In ESCD with E next, DEC_ESC_END counts it; under TERMINATE the DECODE ends with one result (0, pos, none), under
DRAIN dec_state becomes DRAIN. Nothing else changes. (R140.) -/
def Obligations.DecEscEndFollowsThePolicy : Prop :=
  ∀ (s : State) (buf : List Byte), s.DecoderAt .escd buf s.cfg.endByte →
    (s.cfg.escEndPolicy = .terminate →
      ∃ u, exec .decEscEnd s = .next { s with
          dec := u, results := s.results ++ [{ valid := false, consumed := s.dec.pos + 1, pkt := none }] } ∧
        u.buf = none) ∧
    (s.cfg.escEndPolicy = .drain →
      exec .decEscEnd s = .next { s with dec := { s.dec with st := .drain, pos := s.dec.pos + 1 } })

/-- In ESCD with a byte b that is neither in Q nor E next (S and X included), DEC_ESC_BAD answers the state with dec_state
= DRAIN and pos advanced by one and nothing else changed. (R141.) -/
def Obligations.DecEscBadStartsTheDrain : Prop :=
  ∀ (s : State) (buf : List Byte) (b : Byte), s.DecoderAt .escd buf b →
    b ≠ s.cfg.startByte + s.cfg.escOffset → b ≠ s.cfg.endByte + s.cfg.escOffset →
    b ≠ s.cfg.escByte + s.cfg.escOffset → b ≠ s.cfg.endByte →
    exec (.decEscBad b) s = .next { s with dec := { s.dec with st := .drain, pos := s.dec.pos + 1 } }

/-- In DRAIN with E next, DEC_DRAIN_END ends the DECODE with one result (0, pos, none), pos counting the E; the decoder is
free and nothing else changes. (R142.) -/
def Obligations.DecDrainEndReturnsInvalid : Prop :=
  ∀ (s : State) (buf : List Byte), s.DecoderAt .drain buf s.cfg.endByte →
    ∃ u, exec .decDrainEnd s = .next { s with
        dec := u, results := s.results ++ [{ valid := false, consumed := s.dec.pos + 1, pkt := none }] } ∧
      u.buf = none

/-- In DRAIN with a byte b other than E next (S, X and Q values included), DEC_DRAIN_SKIP answers the state with pos
advanced by one and nothing else changed. (R143.) -/
def Obligations.DecDrainSkipConsumes : Prop :=
  ∀ (s : State) (buf : List Byte) (b : Byte), s.DecoderAt .drain buf b → b ≠ s.cfg.endByte →
    exec (.decDrainSkip b) s = .next { s with dec := { s.dec with pos := s.dec.pos + 1 } }

/-- With a DECODE of buf in progress and pos = L, in any of SCAN, BODY, ESCD and DRAIN, DEC_EXHAUST ends the DECODE with
one result (0, L, none); nothing of the unfinished frame is kept for the next DECODE and nothing else changes. L = 0
gives (0, 0, none). That the decoder's registers take their reset values at the end of the DECODE is the model's
choice (log entry 5). Rests on 41_decoder.md section 2 (R144); 10_state.md section 3 (R26, R27). -/
def Obligations.DecExhaustReturnsInvalid : Prop :=
  ∀ (s : State) (buf : List Byte), s.dec.buf = some buf → s.dec.pos = buf.length →
    exec .decExhaust s = .next { s with
      dec := State.reset.dec
      results := s.results ++ [{ valid := false, consumed := buf.length, pkt := none }] }

/-- With no DECODE in progress every decoder step answers the state unchanged, and with no ENCODE in progress and
enc_state = IDLE every encoder step does. With a byte next in the decoder: each decoder step in another state than its
own, with another byte next, or (for the OTHER rows) with a byte that is not of its class; and at the end of the
buffer every one but DEC_EXHAUST. In the encoder: ENC_PLAIN with another byte than the one at enc_i, ENC_ESCAPE of S,
E or X with another byte there; ENC_START outside IDLE, ENC_FINISH when not enabled, and every packet-byte step
outside BODY, after truncation or with enc_i = N. R103 to R105 say so of the encoder's packet-byte steps; for the rest
this is the model's choice (log entry 9). Rests on 40_encoder.md section 2 (R102 to R106); 41_decoder.md section 1
(R133); 30_encoding.md section 1 (R63). -/
def Obligations.StepsThatAreNotSelectedDoNothing : Prop :=
  ∀ s : State,
    let S := s.cfg.startByte
    let E := s.cfg.endByte
    let X := s.cfg.escByte
    let K := s.cfg.escOffset
    (∀ i : Instr, s.dec.buf = none → i.isDecoderRow = true → (∀ buf, i ≠ .decode buf) → exec i s = .next s) ∧
    (∀ i : Instr, s.enc.pkt = none → s.enc.st = .idle → i.isEncoderRow = true →
      (∀ p, i ≠ .encode p ∧ i ≠ .encNosink p) → exec i s = .next s) ∧
    (∀ (st : DecState) (buf : List Byte) (b : Byte), s.DecoderAt st buf b →
      (st ≠ .scan ∨ b ≠ S → exec .decScanStart s = .next s) ∧
      (∀ b', st ≠ .scan ∨ b' ≠ b ∨ b' = S → exec (.decScanSkip b') s = .next s) ∧
      (st ≠ .body ∨ b ≠ X → exec .decBodyEsc s = .next s) ∧
      (st ≠ .body ∨ b ≠ E → exec .decBodyEnd s = .next s) ∧
      (∀ b', st ≠ .body ∨ b' ≠ b ∨ b' = X ∨ b' = E → exec (.decBodyData b') s = .next s) ∧
      (st ≠ .escd ∨ b ≠ S + K → exec .decEscS s = .next s) ∧
      (st ≠ .escd ∨ b ≠ E + K → exec .decEscE s = .next s) ∧
      (st ≠ .escd ∨ b ≠ X + K → exec .decEscX s = .next s) ∧
      (st ≠ .escd ∨ b ≠ E → exec .decEscEnd s = .next s) ∧
      (∀ b', st ≠ .escd ∨ b' ≠ b ∨ b' ∈ [S + K, E + K, X + K] ∨ b' = E → exec (.decEscBad b') s = .next s) ∧
      (st ≠ .drain ∨ b ≠ E → exec .decDrainEnd s = .next s) ∧
      (∀ b', st ≠ .drain ∨ b' ≠ b ∨ b' = E → exec (.decDrainSkip b') s = .next s) ∧
      exec .decExhaust s = .next s) ∧
    (∀ (i : Instr) (buf : List Byte), s.dec.buf = some buf → s.dec.pos = buf.length → i.isDecoderRow = true →
      (∀ buf', i ≠ .decode buf') → i ≠ .decExhaust → exec i s = .next s) ∧
    (∀ (p : List Byte) (b : Byte), s.EncoderAt p b →
      (∀ b', b' ≠ b → exec (.encPlain b') s = .next s) ∧ (b ≠ S → exec .encEscapeS s = .next s) ∧
      (b ≠ E → exec .encEscapeE s = .next s) ∧ (b ≠ X → exec .encEscapeX s = .next s)) ∧
    (s.enc.st ≠ .idle ∨ s.enc.pkt = none → exec .encStart s = .next s) ∧
    (s.enc.st ≠ .body ∨ (s.enc.i ≠ s.cfg.packetSize ∧ s.enc.trunc = false) → exec .encFinish s = .next s) ∧
    (s.enc.st ≠ .body ∨ s.enc.trunc = true ∨ s.cfg.packetSize ≤ s.enc.i →
      (∀ b, exec (.encPlain b) s = .next s) ∧ exec .encEscapeS s = .next s ∧ exec .encEscapeE s = .next s ∧
      exec .encEscapeX s = .next s ∧ exec .encDrop s = .next s)

/-- From an admitted machine that meets State.Inv, with neither an ENCODE nor a DECODE in progress and one byte-serial
DECODE with L <= M as the only input, some k <= L + 2 steps (taking the operand in, one per byte inspected, and
exhaustion) end in exactly the state that one atomic DECODE gives: one result, that of the parse, and no trace in the
decoder. The bound counts the step that takes the operand in (log entry 10), and the unit at rest holds the values of
log entry 5: both are the model's choice. Rests on 41_decoder.md sections 1 to 3 (R130 to R148); 00_scope.md section 1
(R3); 70_reset_and_hazards.md section 4 (R208). -/
def Obligations.ByteSerialDecodeIsDecode : Prop :=
  ∀ (s : State) (v : Bool) (buf : List Byte), s.cfg.Admitted → s.Inv → s.enc.pkt = none → s.dec.buf = none →
    (∀ m, s.cfg.maxBuf = some m → buf.length ≤ m) → s.inputs = [.serial { op := 2, v := v, data := buf }] →
    ∃ k, k ≤ buf.length + 2 ∧
      Sys2Proof.core.run k s = Sys2Proof.core.run 1 { s with inputs := [.request { op := 2, v := v, data := buf }] } ∧
      Sys2Proof.core.run k s = .next { s with inputs := [], results := s.results ++ [decodeFrame s.cfg buf] }

/-- For every configuration and buffer of L bytes: consumed <= L; when valid = 1 the packet is there and has N bytes; when
valid = 0 there is none; and a port of CNT_W bits with 2^CNT_W > M holds the count of every buffer of at most M bytes.
(R75.) -/
def Obligations.ResultTriplesAreWellFormed : Prop :=
  ∀ (c : Config) (buf : List Byte),
    (decodeFrame c buf).consumed ≤ buf.length ∧
    ((decodeFrame c buf).valid = true →
      ∃ pkt, (decodeFrame c buf).pkt = some pkt ∧ pkt.length = c.packetSize) ∧
    ((decodeFrame c buf).valid = false → (decodeFrame c buf).pkt = none) ∧
    (∀ width m : Nat, c.maxBuf = some m → m < 2 ^ width → buf.length ≤ m → (decodeFrame c buf).consumed < 2 ^ width)

/-- For every configuration and buffer: if L >= 1 then consumed >= 1, and an empty buffer gives (0, 0, none). Rests on
41_decoder.md section 4 (R156, derived by the spec); 41_decoder.md section 2 (R144). -/
def Obligations.DecodeMakesProgress : Prop :=
  ∀ (c : Config) (buf : List Byte),
    (buf ≠ [] → 1 ≤ (decodeFrame c buf).consumed) ∧
    (buf = [] → decodeFrame c buf = { valid := false, consumed := 0, pkt := none })

/-- If the parse of a buffer was valid, or stopped before the buffer's end, then appending any bytes gives the same
result: they are not inspected and not counted. Rests on 41_decoder.md section 1 (R130, R133); 41_decoder.md section 3
(R147). -/
def Obligations.BytesAfterTheEndAreNotInspected : Prop :=
  ∀ (c : Config) (buf more : List Byte),
    ((decodeFrame c buf).valid = true ∨ (decodeFrame c buf).consumed < buf.length) →
    decodeFrame c (buf ++ more) = decodeFrame c buf

/-- Assume an admitted configuration with C >= 2N + 2. For every packet p of N bytes, every g that holds no S and every h,
decoding g ++ EncodeFrame(p) ++ h gives (1, len(g) + len(EncodeFrame(p)), p). Rests on 41_decoder.md section 4 (R151,
derived by the spec). -/
def Obligations.DecodeOfAnEncodedPacketIsThePacket : Prop :=
  ∀ (c : Config) (p g h : List Byte), c.Admitted → 2 * c.packetSize + 2 ≤ c.frameCap → p.length = c.packetSize →
    c.startByte ∉ g →
    decodeFrame c (g ++ encodeFrame c p ++ h) =
      { valid := true, consumed := g.length + (encodeFrame c p).length, pkt := some p }

/-- For every admitted configuration and packet of N bytes: if EncodeFrame(p) is not the untruncated frame of R65,
decoding it gives (0, its length, none). Rests on 41_decoder.md section 4 (R153, derived by the spec); 40_encoder.md
section 3 (R109(d)). -/
def Obligations.TruncatedFramesDoNotDecode : Prop :=
  ∀ (c : Config) (p : List Byte), c.Admitted → p.length = c.packetSize →
    encodeFrame c p ≠ [c.startByte] ++ p.flatMap c.unit ++ [c.endByte] →
    decodeFrame c (encodeFrame c p) = { valid := false, consumed := (encodeFrame c p).length, pkt := none }

/-- Assume an admitted configuration with C >= 2N + 2, p of N bytes, F = EncodeFrame(p) and buf = g ++ F ++ h. Some pass
of the caller's loop (PassAt: start at 0, go on by consumed after an invalid pass) starting at o answers (1, len(F) +
len(g) - o, p) if and only if some pass starts at an o <= len(g) such that g from o on holds no S. That no earlier
pass was valid is part of PassAt. Rests on 41_decoder.md section 4 (R152, derived by the spec); 90_conflicts.md C1 and
C8. -/
def Obligations.ResynchronisationReturnsTheFrameExactlyUnderItsCondition : Prop :=
  ∀ (c : Config) (p g h : List Byte), c.Admitted → 2 * c.packetSize + 2 ≤ c.frameCap → p.length = c.packetSize →
    ((∃ o, PassAt c (g ++ encodeFrame c p ++ h) o ∧
        decodeFrame c ((g ++ encodeFrame c p ++ h).drop o) =
          { valid := true, consumed := (encodeFrame c p).length + g.length - o, pkt := some p }) ↔
     (∃ o, PassAt c (g ++ encodeFrame c p ++ h) o ∧ o ≤ g.length ∧ c.startByte ∉ g.drop o))

/-- For an admitted configuration and a packet p of N bytes with C >= 2N + 2: after S and body bytes outside R (a frame
whose E was lost) and then the frame of p, and likewise after S, X and a byte that is neither in Q nor E, the parse is
invalid and counts everything through the second frame's E. Rests on 41_decoder.md section 4 (R154 and R155, derived
by the spec). -/
def Obligations.DrainsAndMergesSwallowTheNextFrame : Prop :=
  ∀ (c : Config) (p d : List Byte) (v : Byte), c.Admitted → 2 * c.packetSize + 2 ≤ c.frameCap →
    p.length = c.packetSize → (∀ b ∈ d, b ∉ c.reserved) → v ∉ c.escaped → v ≠ c.endByte →
    decodeFrame c (c.startByte :: d ++ encodeFrame c p) =
      { valid := false, consumed := 1 + d.length + (encodeFrame c p).length, pkt := none } ∧
    decodeFrame c (c.startByte :: c.escByte :: v :: encodeFrame c p) =
      { valid := false, consumed := 3 + (encodeFrame c p).length, pkt := none }

/-- If a row of the encoder and then a row of the decoder answer next states, then the same two rows in the other order
answer next states and end in the same state: the units share no mutable state, and any interleaving gives the results
of a sequential order. Rests on 20_memory.md section 3 (R49(d), derived by the spec). -/
def Obligations.EncoderAndDecoderRowsCommute : Prop :=
  ∀ (i j : Instr) (s t u : State), i.isEncoderRow = true → j.isDecoderRow = true →
    ((exec i s = .next t → exec j t = .next u → ∃ t', exec j s = .next t' ∧ exec i t' = .next u) ∧
     (exec j s = .next t → exec i t = .next u → ∃ t', exec i s = .next t' ∧ exec j t' = .next u))

/-- When a row of the encoder answers a next state, the decoder unit, SINK_BOUND, the results, the parameters and the
inputs are unchanged; when a row of the decoder does, the encoder unit, SINK_BOUND, the sink's log, the parameters and
the inputs are. Rests on 20_memory.md section 3 (R49); 20_memory.md section 2 (R46). -/
def Obligations.UnitsKeepTheOthersState : Prop :=
  ∀ (i : Instr) (s t : State), exec i s = .next t →
    (i.isEncoderRow = true →
      t.dec = s.dec ∧ t.sinkBound = s.sinkBound ∧ t.results = s.results ∧ t.cfg = s.cfg ∧ t.inputs = s.inputs) ∧
    (i.isDecoderRow = true →
      t.enc = s.enc ∧ t.sinkBound = s.sinkBound ∧ t.sunk = s.sunk ∧ t.cfg = s.cfg ∧ t.inputs = s.inputs)

/-- After every step the sink's log is unchanged or one event longer at its end, the event's length being that of its
frame, and so is the result log; never both in one step. Rests on 20_memory.md section 2 (R46). -/
def Obligations.AtMostOneEventPerStep : Prop :=
  ∀ s t : State, step s = .next t →
    (t.sunk = s.sunk ∧ t.results = s.results) ∨
    (t.results = s.results ∧ ∃ e : SinkEvent, t.sunk = s.sunk ++ [e] ∧ e.length = e.frame.length) ∨
    (t.sunk = s.sunk ∧ ∃ r : Result, t.results = s.results ++ [r])

/-- No step of any state is refused. From an admitted state that meets State.Inv, a step that faults took an operation
with an operand of the wrong size (Fault 2, with the operation and the length), a BIND_SINK during an ENCODE (Fault
3), or a change of the buffer of a DECODE in progress or a destination shared by two decoders (Fault 4): no packet or
buffer content faults. Rests on 60_exceptions.md section 1 (R180, R182). -/
def Obligations.OnlyTheNamedConditionsFault : Prop :=
  (∀ (s : State) (r : Refusal), step s ≠ .refused r) ∧
  ∀ (s : State) (f : Fault), s.cfg.Admitted → s.Inv → step s = .fault f →
    ∃ rest,
      (∃ w : PortWord, (s.inputs = .request w :: rest ∨ s.inputs = .serial w :: rest) ∧
        ((w.op = 1 ∧ w.data.length ≠ s.cfg.packetSize ∧ f = .operandRefused .encode w.data.length) ∨
         (w.op = 2 ∧ s.cfg.bufFits w.data.length = false ∧ f = .operandRefused .decode w.data.length) ∨
         (w.op = 3 ∧ s.enc.pkt ≠ none ∧ f = .bindRace))) ∨
      (((s.inputs = .changeBuf :: rest ∧ s.dec.buf ≠ none) ∨ s.inputs = .shareDest :: rest) ∧ f = .bufferRace)

/-- In an admitted machine: presenting BIND_SINK while enc_state != IDLE answers BindRace, at either level of presentation
(and already when the operand is held before ENC_START, which the model adds: log entry 10); two decoders sharing a
destination answers BufferRace in every state; the host changing a buffer answers it with a DECODE in progress, and
with none in progress leaves the block unchanged (log entry 10). Rests on 70_reset_and_hazards.md section 3 (R204,
R205). -/
def Obligations.HazardsOfTheHostAreFaults : Prop :=
  ∀ (s : State) (rest : List Input), s.cfg.Admitted →
    (∀ w : PortWord, w.op = 3 → (s.inputs = .request w :: rest ∨ s.inputs = .serial w :: rest) →
      (s.enc.st ≠ .idle ∨ s.enc.pkt ≠ none) → step s = .fault .bindRace) ∧
    (s.inputs = .shareDest :: rest → step s = .fault .bufferRace) ∧
    (s.inputs = .changeBuf :: rest →
      (s.dec.buf ≠ none → step s = .fault .bufferRace) ∧
      (s.dec.buf = none → step s = .next { s with inputs := rest }))

/-- While the working buffers stay in use: an encoder step that answers a next state still in progress changes no byte of
enc_buf outside the indices enc_len up to enc_len after it (ENC_START: index 0), and no byte of asm; a decoder step
still in progress changes no byte of asm other than index idx, and that one only when it advances idx, and no byte of
enc_buf. Rests on 20_memory.md section 1 (R42, R43); 40_encoder.md section 2 (R102 to R105); 41_decoder.md section 3
(R145). -/
def Obligations.MemoryStepsWriteOnlyTheirBytes : Prop :=
  ∀ (i : Instr) (s t : State), exec i s = .next t →
    (i.isEncoderRow = true → t.enc.pkt = s.enc.pkt → s.enc.pkt ≠ none →
      (∀ a, t.dec.asm.read a = s.dec.asm.read a) ∧
      (i = .encStart → ∀ a, a ≠ 0 → t.enc.buf.read a = s.enc.buf.read a) ∧
      (i ≠ .encStart → s.enc.len ≤ t.enc.len ∧ ∀ a, ¬ (s.enc.len ≤ a ∧ a < t.enc.len) →
        t.enc.buf.read a = s.enc.buf.read a)) ∧
    (i.isDecoderRow = true → t.dec.buf = s.dec.buf → s.dec.buf ≠ none →
      (∀ a, t.enc.buf.read a = s.enc.buf.read a) ∧
      (∀ a, a ≠ s.dec.idx ∨ t.dec.idx = s.dec.idx → t.dec.asm.read a = s.dec.asm.read a))
end

