-- ==== Sys2Proof/Laws/Bytes.lean ====
section
/-! SUPPORT. The special bytes of an admitted configuration, what each classifier answers, and the bound of PACKET_SIZE. -/

namespace Sys2Proof

/-- PACKET_SIZE is at least 5 (R9). -/
theorem Config.packetSize_ge_five (c : Config) : 5 ≤ c.packetSize := Nat.le_add_left 5 _

/-- Every N that R9 allows is the packet size of some configuration, the rest of it as given. -/
theorem Config.exists_packetSize (c : Config) (n : Nat) (h : 5 ≤ n) :
    Config.packetSize { c with packetSizeMinus5 := n - 5 } = n := Nat.sub_add_cancel h

theorem Config.unesc_esc (c : Config) (b : Byte) : c.unesc (c.esc b) = b := by
  simp [Config.unesc, Config.esc, BitVec.add_sub_cancel]

theorem Config.esc_unesc (c : Config) (v : Byte) : c.esc (c.unesc v) = v := by
  simp [Config.unesc, Config.esc, BitVec.sub_add_cancel]

theorem Config.esc_inj (c : Config) {a b : Byte} (h : c.esc a = c.esc b) : a = b := by
  rw [← c.unesc_esc a, ← c.unesc_esc b, h]

theorem Config.mem_reserved (c : Config) (b : Byte) :
    b ∈ c.reserved ↔ b = c.startByte ∨ b = c.endByte ∨ b = c.escByte := by
  simp [Config.reserved]

theorem Config.mem_escaped (c : Config) (b : Byte) :
    b ∈ c.escaped ↔ b = c.esc c.startByte ∨ b = c.esc c.endByte ∨ b = c.esc c.escByte := by
  simp [Config.escaped]

theorem Config.esc_mem_escaped (c : Config) (b : Byte) : c.esc b ∈ c.escaped ↔ b ∈ c.reserved := by
  rw [Config.mem_escaped, Config.mem_reserved]
  constructor
  · rintro (h | h | h)
    · exact .inl (c.esc_inj h)
    · exact .inr (.inl (c.esc_inj h))
    · exact .inr (.inr (c.esc_inj h))
  · rintro (rfl | rfl | rfl) <;> simp

/-- `broken` finds a constraint exactly when the configuration is not admitted. -/
theorem Config.broken_eq_none (c : Config) : c.broken = none ↔ c.Admitted := by
  unfold Config.broken Config.Admitted
  split
  · exact ⟨fun h => (nomatch h), fun h => absurd h.1 ‹_›⟩
  · split
    · exact ⟨fun h => (nomatch h), fun h => absurd h.2.1 ‹_›⟩
    · split
      · exact ⟨fun h => (nomatch h), fun h => absurd h.2.2.1 ‹_›⟩
      · split
        · exact ⟨fun h => (nomatch h), fun h => absurd h.2.2.2 ‹_›⟩
        · exact ⟨fun _ => ⟨Decidable.not_not.mp ‹¬ ¬ c.K1›, Decidable.not_not.mp ‹¬ ¬ c.K2›,
            Decidable.not_not.mp ‹¬ ¬ c.K3›, Decidable.not_not.mp ‹¬ ¬ c.K4›⟩, fun _ => rfl⟩

/-- No escaped form is a reserved byte (K3). -/
theorem Config.Admitted.escaped_not_reserved {c : Config} (h : c.Admitted) {q : Byte} (hq : q ∈ c.escaped) :
    q ∉ c.reserved := h.2.2.1 q hq

theorem Config.unit_reserved (c : Config) {b : Byte} (h : b ∈ c.reserved) : c.unit b = [c.escByte, c.esc b] := by
  simp [Config.unit, h]

theorem Config.unit_plain (c : Config) {b : Byte} (h : b ∉ c.reserved) : c.unit b = [b] := by
  simp [Config.unit, h]

theorem Config.unit_length (c : Config) (b : Byte) :
    (c.unit b).length = if b ∈ c.reserved then 2 else 1 := by
  unfold Config.unit
  split <;> rfl

/-- The encoder's class, one line for each row of the opcode table (R62). -/
theorem Config.encClass_eq (c : Config) (h : c.Admitted) (b : Byte) :
    (c.encClass b = .markS ↔ b = c.startByte) ∧ (c.encClass b = .markE ↔ b = c.endByte) ∧
    (c.encClass b = .markX ↔ b = c.escByte) ∧ (c.encClass b = .plain ↔ b ∉ c.reserved) := by
  obtain ⟨⟨h1, h2, h3⟩, -⟩ := h
  rw [Config.mem_reserved]
  unfold Config.encClass
  split
  · simp_all
  · split
    · simp_all [eq_comm]
    · split
      · simp_all [eq_comm]
      · simp_all

/-- The pairwise distinctness of the six special bytes, S, E, X and their escaped forms (R61). -/
theorem Config.Admitted.special_ne {c : Config} (h : c.Admitted) :
    c.startByte ≠ c.endByte ∧ c.startByte ≠ c.escByte ∧ c.endByte ≠ c.escByte ∧
    c.esc c.startByte ≠ c.esc c.endByte ∧ c.esc c.startByte ≠ c.esc c.escByte ∧ c.esc c.endByte ≠ c.esc c.escByte ∧
    (∀ q ∈ c.escaped, q ≠ c.startByte ∧ q ≠ c.endByte ∧ q ≠ c.escByte) := by
  have hd := h.1
  refine ⟨hd.1, hd.2.1, hd.2.2, fun e => hd.1 (c.esc_inj e), fun e => hd.2.1 (c.esc_inj e),
    fun e => hd.2.2 (c.esc_inj e), fun q hq => ?_⟩
  have hr := h.escaped_not_reserved hq
  rw [Config.mem_reserved, not_or, not_or] at hr
  exact hr

/-- The decoder's class of each special byte (R63). -/
theorem Config.Admitted.decClass_special {c : Config} (h : c.Admitted) :
    c.decClass c.startByte = .markS ∧ c.decClass c.endByte = .markE ∧ c.decClass c.escByte = .markX ∧
    c.decClass (c.esc c.startByte) = .escS ∧ c.decClass (c.esc c.endByte) = .escE ∧
    c.decClass (c.esc c.escByte) = .escX := by
  obtain ⟨h1, h2, h3, h4, h5, h6, h7⟩ := h.special_ne
  have hS := h7 (c.esc c.startByte) (by simp [Config.escaped])
  have hE := h7 (c.esc c.endByte) (by simp [Config.escaped])
  have hX := h7 (c.esc c.escByte) (by simp [Config.escaped])
  refine ⟨?_, ?_, ?_, ?_, ?_, ?_⟩ <;> simp_all [Config.decClass, Ne.symm]

/-- What each answer of `decClass` says of the byte. -/
theorem Config.decClass_spec (c : Config) (b : Byte) :
    (c.decClass b = .markS → b = c.startByte) ∧ (c.decClass b = .markE → b = c.endByte) ∧
    (c.decClass b = .markX → b = c.escByte) ∧ (c.decClass b = .escS → b = c.esc c.startByte) ∧
    (c.decClass b = .escE → b = c.esc c.endByte) ∧ (c.decClass b = .escX → b = c.esc c.escByte) ∧
    (c.decClass b = .other → b ∉ c.reserved ∧ b ∉ c.escaped) := by
  rw [Config.mem_reserved, Config.mem_escaped]
  unfold Config.decClass
  repeat' split
  all_goals simp_all

/-- A byte outside R ∪ Q is OTHER. -/
theorem Config.decClass_other (c : Config) (b : Byte) (h : b ∉ c.reserved) (hq : b ∉ c.escaped) :
    c.decClass b = .other := by
  rw [Config.mem_reserved] at h
  rw [Config.mem_escaped] at hq
  simp only [not_or] at h hq
  simp [Config.decClass, h, hq]

end Sys2Proof
end

