-- ==== Sys2Proof/Laws/Memory.lean ====
section
/-! SUPPORT. The laws of a working buffer: a read after a write, the canonical form, and the slice of a buffer whose first n bytes are
exactly the ones written. -/

namespace Sys2Proof.Machine

theorem Memory.read_write_same (m : Memory) (a : Nat) (v : Byte) : (m.write a v).read a = some v := by
  induction m with
  | nil => simp [Memory.write, Memory.read]
  | cons hd m ih =>
    obtain ⟨k, w⟩ := hd
    unfold Memory.write
    split
    · simp [Memory.read]
    · split
      · simp [Memory.read]
      · simp [Memory.read, *]

theorem Memory.read_write_other (m : Memory) (a b : Nat) (v : Byte) (h : b ≠ a) :
    (m.write a v).read b = m.read b := by
  induction m with
  | nil => simp [Memory.write, Memory.read, h]
  | cons hd m ih =>
    obtain ⟨k, w⟩ := hd
    unfold Memory.write
    split
    · simp [Memory.read, h]
    · split
      · rename_i hk
        have hb : b ≠ k := hk ▸ h
        simp [Memory.read, h, hb]
      · simp [Memory.read, ih]

theorem Memory.mem_write_fst (m : Memory) (a : Nat) (v : Byte) (x : Nat)
    (h : x ∈ (m.write a v).map Prod.fst) : x = a ∨ x ∈ m.map Prod.fst := by
  induction m with
  | nil => simpa [Memory.write] using h
  | cons hd m ih =>
    obtain ⟨k, w⟩ := hd
    unfold Memory.write at h
    split at h
    · rw [List.map_cons, List.mem_cons] at h
      exact h
    · split at h
      · rw [List.map_cons, List.mem_cons] at h
        rw [List.map_cons, List.mem_cons]
        exact h.imp id .inr
      · rw [List.map_cons, List.mem_cons] at h
        rw [List.map_cons, List.mem_cons]
        rcases h with h | h
        · exact .inr (.inl h)
        · exact (ih h).imp id .inr

/-- Every write keeps the canonical form. -/
theorem Memory.write_wf (m : Memory) (a : Nat) (v : Byte) (h : Memory.wf m) : Memory.wf (m.write a v) := by
  induction m with
  | nil => simp [Memory.write, Memory.wf]
  | cons hd m ih =>
    obtain ⟨k, w⟩ := hd
    have hk : ∀ x ∈ m.map Prod.fst, k < x := by
      simpa [Memory.wf] using (List.pairwise_cons.mp h).1
    have hm : Memory.wf m := (List.pairwise_cons.mp h).2
    unfold Memory.write
    split
    · rename_i hlt
      refine List.pairwise_cons.mpr ⟨?_, h⟩
      intro x hx
      rw [List.map_cons, List.mem_cons] at hx
      rcases hx with rfl | hx
      · exact hlt
      · exact Nat.lt_trans hlt (hk x hx)
    · split
      · rename_i ha
        subst ha
        exact List.pairwise_cons.mpr ⟨hk, hm⟩
      · refine List.pairwise_cons.mpr ⟨?_, ih hm⟩
        intro x hx
        rcases Memory.mem_write_fst m a v x hx with rfl | hx
        · show k < x
          omega
        · exact hk x hx

/-- Writing past every listed index appends. -/
theorem Memory.write_append (m : Memory) (a : Nat) (v : Byte) (h : ∀ x ∈ m.map Prod.fst, x < a) :
    m.write a v = m ++ [(a, v)] := by
  induction m with
  | nil => rfl
  | cons hd m ih =>
    obtain ⟨k, w⟩ := hd
    have hk : k < a := h k (by simp)
    have hm : ∀ x ∈ m.map Prod.fst, x < a := fun x hx => h x (by simp only [List.map_cons, List.mem_cons]; exact .inr hx)
    have h1 : ¬ a < k := by omega
    have h2 : ¬ a = k := by omega
    simp [Memory.write, h1, h2, ih hm]

/-- A buffer whose written indices are exactly 0..n-1 is in canonical form. -/
theorem Memory.wf_of_written (m : Memory) (n : Nat) (h : m.map Prod.fst = List.range n) : Memory.wf m := by
  unfold Memory.wf
  rw [h]
  exact List.pairwise_lt_range

/-- Writing index n of a buffer written at exactly 0..n-1. -/
theorem Memory.write_next (m : Memory) (n : Nat) (v : Byte) (h : m.map Prod.fst = List.range n) :
    (m.write n v).map Prod.fst = List.range (n + 1) := by
  rw [Memory.write_append m n v (by rw [h]; intro x hx; exact List.mem_range.mp hx)]
  simp [h, List.range_succ]

theorem Memory.slice_length (m : Memory) (n : Nat) : (m.slice n).length = n := by
  simp [Memory.slice]

theorem Memory.slice_succ (m : Memory) (n : Nat) :
    m.slice (n + 1) = m.slice n ++ [(m.read n).getD (Config.unwritten n)] := by
  simp [Memory.slice, List.range_succ]

/-- A write outside a slice leaves it. -/
theorem Memory.slice_write_outside (m : Memory) (n a : Nat) (v : Byte) (h : n ≤ a) :
    (m.write a v).slice n = m.slice n := by
  unfold Memory.slice
  refine List.map_congr_left fun x hx => ?_
  rw [Memory.read_write_other m a x v (by have := List.mem_range.mp hx; omega)]

/-- Writing the byte after a slice extends it by that byte. -/
theorem Memory.slice_write_next (m : Memory) (n : Nat) (v : Byte) :
    (m.write n v).slice (n + 1) = m.slice n ++ [v] := by
  rw [Memory.slice_succ, Memory.slice_write_outside m n n v (Nat.le_refl n), Memory.read_write_same]
  rfl

theorem Memory.writeWithin_eq (bound : Nat) (m m' : Memory) (a : Nat) (v : Byte) :
    m.writeWithin bound a v = some m' ↔ a < bound ∧ m' = m.write a v := by
  unfold Memory.writeWithin
  split
  · simp [*, eq_comm]
  · simp [*]

theorem Memory.writeWithin_none (bound : Nat) (m : Memory) (a : Nat) (v : Byte) :
    m.writeWithin bound a v = none ↔ bound ≤ a := by
  unfold Memory.writeWithin
  split <;> simp_all

end Sys2Proof.Machine
end

