-- ==== Sys2Proof/Laws/State.lean ====
section
/-! SUPPORT. One lemma per field per update of the state and of the two units, true by rfl, so that no later proof unfolds a
record update. -/

namespace Sys2Proof.Machine

@[simp] theorem State.emit_cfg (s : State) (f : List Byte) : (s.emit f).cfg = s.cfg := rfl
@[simp] theorem State.emit_sinkBound (s : State) (f : List Byte) : (s.emit f).sinkBound = s.sinkBound := rfl
@[simp] theorem State.emit_enc (s : State) (f : List Byte) : (s.emit f).enc = s.enc := rfl
@[simp] theorem State.emit_dec (s : State) (f : List Byte) : (s.emit f).dec = s.dec := rfl
@[simp] theorem State.emit_inputs (s : State) (f : List Byte) : (s.emit f).inputs = s.inputs := rfl
@[simp] theorem State.emit_sunk (s : State) (f : List Byte) :
    (s.emit f).sunk = s.sunk ++ [{ frame := f, length := f.length }] := rfl
@[simp] theorem State.emit_results (s : State) (f : List Byte) : (s.emit f).results = s.results := rfl

@[simp] theorem State.give_cfg (s : State) (r : Result) : (s.give r).cfg = s.cfg := rfl
@[simp] theorem State.give_sinkBound (s : State) (r : Result) : (s.give r).sinkBound = s.sinkBound := rfl
@[simp] theorem State.give_enc (s : State) (r : Result) : (s.give r).enc = s.enc := rfl
@[simp] theorem State.give_dec (s : State) (r : Result) : (s.give r).dec = s.dec := rfl
@[simp] theorem State.give_inputs (s : State) (r : Result) : (s.give r).inputs = s.inputs := rfl
@[simp] theorem State.give_sunk (s : State) (r : Result) : (s.give r).sunk = s.sunk := rfl
@[simp] theorem State.give_results (s : State) (r : Result) : (s.give r).results = s.results ++ [r] := rfl

@[simp] theorem State.withDec_cfg (s : State) (u : DecUnit) : (s.withDec u).cfg = s.cfg := rfl
@[simp] theorem State.withDec_sinkBound (s : State) (u : DecUnit) : (s.withDec u).sinkBound = s.sinkBound := rfl
@[simp] theorem State.withDec_enc (s : State) (u : DecUnit) : (s.withDec u).enc = s.enc := rfl
@[simp] theorem State.withDec_dec (s : State) (u : DecUnit) : (s.withDec u).dec = u := rfl
@[simp] theorem State.withDec_inputs (s : State) (u : DecUnit) : (s.withDec u).inputs = s.inputs := rfl
@[simp] theorem State.withDec_sunk (s : State) (u : DecUnit) : (s.withDec u).sunk = s.sunk := rfl
@[simp] theorem State.withDec_results (s : State) (u : DecUnit) : (s.withDec u).results = s.results := rfl

@[simp] theorem State.endDecode_cfg (s : State) (r : Result) : (s.endDecode r).cfg = s.cfg := rfl
@[simp] theorem State.endDecode_sinkBound (s : State) (r : Result) : (s.endDecode r).sinkBound = s.sinkBound := rfl
@[simp] theorem State.endDecode_enc (s : State) (r : Result) : (s.endDecode r).enc = s.enc := rfl
@[simp] theorem State.endDecode_dec (s : State) (r : Result) : (s.endDecode r).dec = DecUnit.idle := rfl
@[simp] theorem State.endDecode_inputs (s : State) (r : Result) : (s.endDecode r).inputs = s.inputs := rfl
@[simp] theorem State.endDecode_sunk (s : State) (r : Result) : (s.endDecode r).sunk = s.sunk := rfl
@[simp] theorem State.endDecode_results (s : State) (r : Result) : (s.endDecode r).results = s.results ++ [r] := rfl

@[simp] theorem State.applyReset_cfg (s : State) : s.applyReset.cfg = s.cfg := rfl
@[simp] theorem State.applyReset_sinkBound (s : State) : s.applyReset.sinkBound = false := rfl
@[simp] theorem State.applyReset_enc (s : State) : s.applyReset.enc = EncUnit.idle := rfl
@[simp] theorem State.applyReset_dec (s : State) : s.applyReset.dec = DecUnit.idle := rfl
@[simp] theorem State.applyReset_inputs (s : State) : s.applyReset.inputs = s.inputs := rfl
@[simp] theorem State.applyReset_sunk (s : State) : s.applyReset.sunk = s.sunk := rfl
@[simp] theorem State.applyReset_results (s : State) : s.applyReset.results = s.results := rfl

@[simp] theorem DecUnit.counted_st (u : DecUnit) : u.counted.st = u.st := rfl
@[simp] theorem DecUnit.counted_buf (u : DecUnit) : u.counted.buf = u.buf := rfl
@[simp] theorem DecUnit.counted_asm (u : DecUnit) : u.counted.asm = u.asm := rfl
@[simp] theorem DecUnit.counted_idx (u : DecUnit) : u.counted.idx = u.idx := rfl
@[simp] theorem DecUnit.counted_ovf (u : DecUnit) : u.counted.ovf = u.ovf := rfl
@[simp] theorem DecUnit.counted_pos (u : DecUnit) : u.counted.pos = u.pos + 1 := rfl

@[simp] theorem Result.invalid_valid (n : Nat) : (Result.invalid n).valid = false := rfl
@[simp] theorem Result.invalid_consumed (n : Nat) : (Result.invalid n).consumed = n := rfl
@[simp] theorem Result.invalid_pkt (n : Nat) : (Result.invalid n).pkt = none := rfl

/-- Both units rest and no operation is in progress at reset. -/
theorem EncUnit.idle_busy : EncUnit.idle.busy = false := rfl

theorem DecUnit.idle_busy : DecUnit.idle.busy = false := rfl

theorem EncUnit.busy_iff (u : EncUnit) : u.busy = true ↔ u.pkt ≠ none ∨ u.st ≠ .idle := by
  unfold EncUnit.busy
  cases u.pkt <;> simp

theorem DecUnit.busy_iff (u : DecUnit) : u.busy = true ↔ u.buf ≠ none := by
  unfold DecUnit.busy
  cases u.buf <;> simp

end Sys2Proof.Machine
end

