-- ==== Sys2Proof/Laws/Ops.lean ====
section
/-! SUPPORT. Once and for each shared operation, everything it can do: appending to enc_buf, the bounded store, the guards. -/

namespace Sys2Proof.Machine

theorem EncUnit.put_within (c : Config) (u : EncUnit) (v : Byte) (h : u.len < c.frameCap) :
    u.put c v = some { u with buf := u.buf.write u.len v, len := u.len + 1 } := by
  simp [EncUnit.put, Memory.writeWithin, h]

theorem EncUnit.put_outside (c : Config) (u : EncUnit) (v : Byte) (h : c.frameCap ≤ u.len) : u.put c v = none := by
  simp [EncUnit.put, Memory.writeWithin, Nat.not_lt.mpr h]

/-- What appending the bytes `vs` leaves in enc_buf, when they fit. -/
structure Appended (m m' : Memory) (n : Nat) (vs : List Byte) : Prop where
  slice : m'.slice (n + vs.length) = m.slice n ++ vs
  here : ∀ k v, vs[k]? = some v → m'.read (n + k) = some v
  other : ∀ a, ¬ (n ≤ a ∧ a < n + vs.length) → m'.read a = m.read a
  written : m.map Prod.fst = List.range n → m'.map Prod.fst = List.range (n + vs.length)

theorem EncUnit.putAll_within (c : Config) (vs : List Byte) (u : EncUnit) (h : u.len + vs.length ≤ c.frameCap) :
    ∃ m, u.putAll c vs = some { u with buf := m, len := u.len + vs.length } ∧ Appended u.buf m u.len vs := by
  induction vs generalizing u with
  | nil =>
    refine ⟨u.buf, rfl, ?_⟩
    exact ⟨by simp, by simp, by simp, by simp⟩
  | cons v vs ih =>
    simp only [List.length_cons] at h
    have hput := u.put_within c v (by omega)
    obtain ⟨m, hm, hA⟩ := ih { u with buf := u.buf.write u.len v, len := u.len + 1 } (by show u.len + 1 + vs.length ≤ _; omega)
    have e1 : u.len + 1 + vs.length = u.len + (v :: vs).length := by simp only [List.length_cons]; omega
    refine ⟨m, ?_, ?_⟩
    · unfold EncUnit.putAll
      rw [hput]
      simp only [hm]
      rw [e1]
    · have hs := hA.slice
      have hh := hA.here
      have ho := hA.other
      have hw := hA.written
      simp only at hs hh ho hw
      refine ⟨?_, ?_, ?_, ?_⟩
      · rw [← e1, hs, Memory.slice_write_next, List.append_assoc]
        rfl
      · intro k x hk
        cases k with
        | zero =>
          have hx : v = x := by simpa using hk
          have := ho u.len (by omega)
          rw [Nat.add_zero, this, Memory.read_write_same, hx]
        | succ k =>
          have := hh k x (by simpa using hk)
          rw [← this]
          congr 1
          omega
      · intro a ha
        rw [← e1] at ha
        rw [ho a (by omega), Memory.read_write_other _ _ _ _ (by omega)]
      · intro hr
        rw [← e1]
        exact hw (Memory.write_next _ _ _ hr)

/-- The bounded store with room (R145). -/
theorem DecUnit.store_room (c : Config) (u : DecUnit) (v : Byte) (h : u.idx < c.packetSize) :
    u.store c v = { u with asm := u.asm.write u.idx v, idx := u.idx + 1 } := by
  simp [DecUnit.store, h]

/-- The bounded store without room (R145). -/
theorem DecUnit.store_full (c : Config) (u : DecUnit) (v : Byte) (h : c.packetSize ≤ u.idx) :
    u.store c v = { u with ovf := true } := by
  simp [DecUnit.store, Nat.not_lt.mpr h]

/-- A store touches asm, idx and ovf only. -/
theorem DecUnit.store_fields (c : Config) (u : DecUnit) (v : Byte) :
    (u.store c v).st = u.st ∧ (u.store c v).buf = u.buf ∧ (u.store c v).pos = u.pos := by
  unfold DecUnit.store
  split <;> exact ⟨rfl, rfl, rfl⟩

theorem EncUnit.cur_eq (c : Config) (u : EncUnit) (b : Byte) :
    u.cur c = some b ↔ u.i < c.packetSize ∧ ∃ p, u.pkt = some p ∧ p[u.i]? = some b := by
  unfold EncUnit.cur
  split
  · cases hp : u.pkt <;> simp [*]
  · simp [*]

theorem DecUnit.cur_eq (u : DecUnit) (b : Byte) :
    u.cur = some b ↔ ∃ buf, u.buf = some buf ∧ buf[u.pos]? = some b := by
  unfold DecUnit.cur
  cases hp : u.buf <;> simp

/-- Appending keeps enc_buf in canonical form. -/
theorem EncUnit.putAll_wf (c : Config) (vs : List Byte) (u u' : EncUnit) (h : u.putAll c vs = some u')
    (hw : Memory.wf u.buf) : Memory.wf u'.buf := by
  induction vs generalizing u with
  | nil =>
    cases h
    exact hw
  | cons v vs ih =>
    unfold EncUnit.putAll at h
    by_cases hl : u.len < c.frameCap
    · rw [EncUnit.put_within c u v hl] at h
      exact ih _ h (Memory.write_wf _ _ _ hw)
    · rw [EncUnit.put_outside c u v (Nat.le_of_not_lt hl)] at h
      cases h

/-- The bounded store keeps asm in canonical form. -/
theorem DecUnit.store_wf (c : Config) (u : DecUnit) (v : Byte) (hw : Memory.wf u.asm) :
    Memory.wf (u.store c v).asm := by
  unfold DecUnit.store
  split
  · exact Memory.write_wf _ _ _ hw
  · exact hw

/-- Both working buffers are in canonical form at reset. -/
theorem State.reset_memory_wf : Memory.wf State.reset.enc.buf ∧ Memory.wf State.reset.dec.asm :=
  ⟨List.Pairwise.nil, List.Pairwise.nil⟩

end Sys2Proof.Machine
end

