-- ==== Sys2Proof/Laws/Decoder.lean ====
section
/-! SUPPORT. What a byte-level step of the decoder can answer, once for all of them: not taken, a byte counted, a byte stored, or the
end of the DECODE. -/

namespace Sys2Proof.Machine

/-- Where a decoder step takes the machine. -/
inductive DecMove (s : State) : State → Prop where
  /-- The step is not taken. -/
  | rest : DecMove s s
  /-- A byte is counted and nothing is stored. -/
  | count (buf : List Byte) (hb : s.dec.buf = some buf) (hp : s.dec.pos < buf.length) (st : DecState)
      (hst : st = .scan → s.dec.st = .scan) : DecMove s (s.withDec { s.dec.counted with st := st })
  /-- A byte is counted and the value v is stored, within the bound. -/
  | store (buf : List Byte) (hb : s.dec.buf = some buf) (hp : s.dec.pos < buf.length) (v : Byte) :
      DecMove s (s.withDec { s.dec.counted.store s.cfg v with st := .body })
  /-- The DECODE ends with a result. -/
  | done (r : Result) : DecMove s (s.endDecode r)

theorem DecUnit.sees_buf {u : DecUnit} {st : DecState} {b : Byte} (h : u.sees st b) :
    ∃ buf, u.buf = some buf ∧ u.pos < buf.length := by
  obtain ⟨buf, h1, h2⟩ := (u.cur_eq b).mp h.2
  exact ⟨buf, h1, (List.getElem?_eq_some_iff.mp h2).1⟩

/-- A decoder step never faults, and makes one of the moves. -/
theorem exec_decoder_move (i : Instr) (hi : i.isDecoderRow = true) (hd : ∀ buf, i ≠ .decode buf) (s : State) :
    ∃ t, exec i s = .next t ∧ DecMove s t := by
  have counted : ∀ (st st' : DecState) (b : Byte), s.dec.sees st b → (st' = .scan → s.dec.st = .scan) →
      DecMove s (s.withDec { s.dec.counted with st := st' }) := by
    intro st st' b h hst
    obtain ⟨buf, h1, h2⟩ := DecUnit.sees_buf h
    exact .count buf h1 h2 st' hst
  have same : ∀ (st : DecState) (b : Byte), s.dec.sees st b → DecMove s (s.withDec s.dec.counted) := by
    intro st b h
    obtain ⟨buf, h1, h2⟩ := DecUnit.sees_buf h
    exact .count buf h1 h2 s.dec.st id
  have unescape : ∀ v : Byte, ∃ t, decUnescape v s = .next t ∧ DecMove s t := by
    intro v
    unfold decUnescape
    split
    · rename_i h
      obtain ⟨buf, h1, h2⟩ := DecUnit.sees_buf h
      exact ⟨_, rfl, .store buf h1 h2 _⟩
    · exact ⟨_, rfl, .rest⟩
  cases i with
  | nop => cases hi
  | encode pkt => cases hi
  | decode buf => exact absurd rfl (hd buf)
  | bindSink v => cases hi
  | encNosink pkt => cases hi
  | encStart => cases hi
  | encEscapeS => cases hi
  | encEscapeE => cases hi
  | encEscapeX => cases hi
  | encPlain b => cases hi
  | encDrop => cases hi
  | encFinish => cases hi
  | decScanStart =>
    show ∃ t, execDecScanStart s = _ ∧ _
    unfold execDecScanStart
    split
    · exact ⟨_, rfl, counted _ .body _ ‹_› (fun h => nomatch h)⟩
    · exact ⟨_, rfl, .rest⟩
  | decScanSkip b =>
    show ∃ t, execDecScanSkip b s = _ ∧ _
    unfold execDecScanSkip
    split
    · rename_i h
      exact ⟨_, rfl, same _ _ h.1⟩
    · exact ⟨_, rfl, .rest⟩
  | decBodyEsc =>
    show ∃ t, execDecBodyEsc s = _ ∧ _
    unfold execDecBodyEsc
    split
    · exact ⟨_, rfl, counted _ .escd _ ‹_› (fun h => nomatch h)⟩
    · exact ⟨_, rfl, .rest⟩
  | decBodyEnd =>
    show ∃ t, execDecBodyEnd s = _ ∧ _
    unfold execDecBodyEnd
    split
    · exact ⟨_, rfl, .done _⟩
    · exact ⟨_, rfl, .rest⟩
  | decBodyData b =>
    show ∃ t, execDecBodyData b s = _ ∧ _
    unfold execDecBodyData
    split
    · rename_i h
      obtain ⟨buf, h1, h2⟩ := DecUnit.sees_buf h.1
      have hst : (s.dec.counted.store s.cfg b).st = .body := (DecUnit.store_fields _ _ _).1.trans h.1.1
      have e : s.dec.counted.store s.cfg b = { s.dec.counted.store s.cfg b with st := .body } := by
        rw [← hst]
      rw [e]
      exact ⟨_, rfl, .store buf h1 h2 b⟩
    · exact ⟨_, rfl, .rest⟩
  | decEscS => exact unescape _
  | decEscE => exact unescape _
  | decEscX => exact unescape _
  | decEscEnd =>
    show ∃ t, execDecEscEnd s = _ ∧ _
    unfold execDecEscEnd
    split
    · split
      · exact ⟨_, rfl, .done _⟩
      · exact ⟨_, rfl, counted _ .drain _ ‹_› (fun h => nomatch h)⟩
    · exact ⟨_, rfl, .rest⟩
  | decEscBad b =>
    show ∃ t, execDecEscBad b s = _ ∧ _
    unfold execDecEscBad
    split
    · rename_i h
      exact ⟨_, rfl, counted _ .drain _ h.1 (fun h => nomatch h)⟩
    · exact ⟨_, rfl, .rest⟩
  | decDrainEnd =>
    show ∃ t, execDecDrainEnd s = _ ∧ _
    unfold execDecDrainEnd
    split
    · exact ⟨_, rfl, .done _⟩
    · exact ⟨_, rfl, .rest⟩
  | decDrainSkip b =>
    show ∃ t, execDecDrainSkip b s = _ ∧ _
    unfold execDecDrainSkip
    split
    · rename_i h
      exact ⟨_, rfl, same _ _ h.1⟩
    · exact ⟨_, rfl, .rest⟩
  | decExhaust =>
    show ∃ t, execDecExhaust s = _ ∧ _
    unfold execDecExhaust
    split
    · exact ⟨_, rfl, .rest⟩
    · split
      · exact ⟨_, rfl, .done _⟩
      · exact ⟨_, rfl, .rest⟩

/-- A move of the decoder leaves everything but the decoder and the end of the result log. -/
theorem DecMove.frame {s t : State} (h : DecMove s t) :
    t.cfg = s.cfg ∧ t.sinkBound = s.sinkBound ∧ t.enc = s.enc ∧ t.inputs = s.inputs ∧ t.sunk = s.sunk ∧
    (t.results = s.results ∨ ∃ r, t.results = s.results ++ [r]) := by
  cases h with
  | rest => exact ⟨rfl, rfl, rfl, rfl, rfl, .inl rfl⟩
  | count => exact ⟨rfl, rfl, rfl, rfl, rfl, .inl rfl⟩
  | store => exact ⟨rfl, rfl, rfl, rfl, rfl, .inl rfl⟩
  | done r => exact ⟨rfl, rfl, rfl, rfl, rfl, .inr ⟨r, rfl⟩⟩

end Sys2Proof.Machine
end

