-- ==== Sys2Proof/Laws/Encoder.lean ====
section
/-! SUPPORT. For each byte-level step of the encoder, once, everything it can answer: taken with its whole next state, or not taken. -/

namespace Sys2Proof.Machine

/-- `appendUnit` on a unit that fits. -/
theorem State.appendUnit_within (s : State) (vs : List Byte) (h : s.enc.len + vs.length ≤ s.cfg.frameCap) :
    ∃ m, s.appendUnit vs = .next { s with
        enc := { s.enc with buf := m, len := s.enc.len + vs.length, i := s.enc.i + 1 } } ∧
      Appended s.enc.buf m s.enc.len vs := by
  obtain ⟨m, hm, hA⟩ := s.enc.putAll_within s.cfg vs h
  exact ⟨m, by simp [State.appendUnit, hm, State.withEnc], hA⟩

theorem execEncStart_taken (s : State) (h : s.enc.st = .idle) (hp : s.enc.pkt ≠ none) (hc : 1 ≤ s.cfg.frameCap) :
    execEncStart s = .next { s with enc := { s.enc with
      st := .body, buf := s.enc.buf.write 0 s.cfg.startByte, len := 1, i := 0, trunc := false } } := by
  have hp' : s.enc.pkt.isSome = true := Option.isSome_iff_ne_none.mpr hp
  unfold execEncStart
  rw [if_pos ⟨h, hp'⟩, EncUnit.put_within _ _ _ (by show 0 < _; omega)]
  rfl

theorem execEncStart_notTaken (s : State) (h : s.enc.st ≠ .idle ∨ s.enc.pkt = none) : execEncStart s = .next s := by
  unfold execEncStart
  rw [if_neg]
  rintro ⟨h1, h2⟩
  rcases h with h | h
  · exact h h1
  · simp [h] at h2

theorem execEncPlain_taken (b : Byte) (s : State)
    (h : s.enc.sees s.cfg b ∧ b ∉ s.cfg.reserved ∧ s.enc.len + 2 ≤ s.cfg.frameCap) :
    ∃ m, execEncPlain b s = .next { s with
        enc := { s.enc with buf := m, len := s.enc.len + 1, i := s.enc.i + 1 } } ∧
      Appended s.enc.buf m s.enc.len [b] := by
  unfold execEncPlain
  rw [if_pos h]
  exact s.appendUnit_within [b] (by simp only [List.length_singleton]; omega)

theorem execEncPlain_notTaken (b : Byte) (s : State)
    (h : ¬ (s.enc.sees s.cfg b ∧ b ∉ s.cfg.reserved ∧ s.enc.len + 2 ≤ s.cfg.frameCap)) :
    execEncPlain b s = .next s := by
  unfold execEncPlain
  rw [if_neg h]

theorem encEscape_taken (b : Byte) (s : State)
    (h : s.enc.sees s.cfg b ∧ b ∈ s.cfg.reserved ∧ s.enc.len + 3 ≤ s.cfg.frameCap) :
    ∃ m, encEscape b s = .next { s with
        enc := { s.enc with buf := m, len := s.enc.len + 2, i := s.enc.i + 1 } } ∧
      Appended s.enc.buf m s.enc.len [s.cfg.escByte, s.cfg.esc b] := by
  unfold encEscape
  rw [if_pos h]
  exact s.appendUnit_within [s.cfg.escByte, s.cfg.esc b] (by simp only [List.length_cons, List.length_nil]; omega)

theorem encEscape_notTaken (b : Byte) (s : State)
    (h : ¬ (s.enc.sees s.cfg b ∧ b ∈ s.cfg.reserved ∧ s.enc.len + 3 ≤ s.cfg.frameCap)) :
    encEscape b s = .next s := by
  unfold encEscape
  rw [if_neg h]

theorem execEncDrop_taken (s : State) (b : Byte) (h : s.enc.sees s.cfg b) (hf : ¬ s.enc.fits s.cfg b) :
    execEncDrop s = .next { s with enc := { s.enc with trunc := true } } := by
  unfold execEncDrop
  split
  · rename_i hn
    exact absurd (hn.symm.trans h.2.2) (by simp)
  · rename_i b' hb
    obtain rfl : b' = b := Option.some.inj (hb.symm.trans h.2.2)
    rw [if_pos ⟨h, hf⟩]

theorem execEncDrop_notTaken (s : State) (h : ∀ b, s.enc.sees s.cfg b → s.enc.fits s.cfg b) :
    execEncDrop s = .next s := by
  unfold execEncDrop
  split
  · rfl
  · rename_i b _
    rw [if_neg]
    rintro ⟨h1, h2⟩
    exact h2 (h b h1)

theorem execEncFinish_taken (s : State) (h : s.enc.st = .body)
    (hd : s.enc.i = s.cfg.packetSize ∨ s.enc.trunc = true) (hl : s.enc.len < s.cfg.frameCap) :
    execEncFinish s = .next { s with
      enc := EncUnit.idle
      sunk := s.sunk ++ [{ frame := s.enc.buf.slice s.enc.len ++ [s.cfg.endByte], length := s.enc.len + 1 }] } := by
  unfold execEncFinish
  rw [if_pos ⟨h, hd⟩, EncUnit.put_within _ _ _ hl]
  simp only [State.emit, Memory.slice_write_next]
  simp [Memory.slice_length]

theorem execEncFinish_notTaken (s : State)
    (h : ¬ (s.enc.st = .body ∧ (s.enc.i = s.cfg.packetSize ∨ s.enc.trunc = true))) :
    execEncFinish s = .next s := by
  unfold execEncFinish
  rw [if_neg h]


/-- Where a byte-level encoder step takes the machine. -/
inductive EncMove (s : State) : State → Prop where
  /-- The step is not taken. -/
  | rest : EncMove s s
  /-- ENC_START (R102). -/
  | start (h : s.enc.st = .idle) (hp : s.enc.pkt ≠ none) (hc : 1 ≤ s.cfg.frameCap) :
      EncMove s { s with enc := { s.enc with
        st := .body, buf := s.enc.buf.write 0 s.cfg.startByte, len := 1, i := 0, trunc := false } }
  /-- ENC_PLAIN or ENC_ESCAPE (R103, R104): the unit of the byte at enc_i is appended, with room left for the end marker. -/
  | append (b : Byte) (h : s.enc.sees s.cfg b) (hf : s.enc.len + (s.cfg.unit b).length + 1 ≤ s.cfg.frameCap)
      (m : Memory) (hm : Appended s.enc.buf m s.enc.len (s.cfg.unit b)) :
      EncMove s { s with enc := { s.enc with
        buf := m, len := s.enc.len + (s.cfg.unit b).length, i := s.enc.i + 1 } }
  /-- ENC_DROP (R105). -/
  | drop (b : Byte) (h : s.enc.sees s.cfg b) (hf : ¬ s.enc.fits s.cfg b) :
      EncMove s { s with enc := { s.enc with trunc := true } }
  /-- ENC_FINISH (R106). -/
  | done (h : s.enc.st = .body) (hd : s.enc.i = s.cfg.packetSize ∨ s.enc.trunc = true)
      (hl : s.enc.len < s.cfg.frameCap) :
      EncMove s { s with
        enc := EncUnit.idle
        sunk := s.sunk ++ [{ frame := s.enc.buf.slice s.enc.len ++ [s.cfg.endByte], length := s.enc.len + 1 }] }

/-- A byte-level encoder step makes one of the moves, unless it is ENC_START or ENC_FINISH with no byte of enc_buf left. -/
theorem exec_encoder_move (i : Instr) (hi : i.isEncoderRow = true)
    (hd : ∀ p, i ≠ .encode p ∧ i ≠ .encNosink p) (s : State) :
    (∃ t, exec i s = .next t ∧ EncMove s t) ∨
    (exec i s = .fault .outOfBounds ∧
      ((s.enc.st = .idle ∧ s.enc.pkt ≠ none ∧ s.cfg.frameCap = 0) ∨
       (s.enc.st = .body ∧ s.cfg.frameCap ≤ s.enc.len))) := by
  have escape : ∀ b : Byte, ∃ t, encEscape b s = .next t ∧ EncMove s t := by
    intro b
    by_cases h : s.enc.sees s.cfg b ∧ b ∈ s.cfg.reserved ∧ s.enc.len + 3 ≤ s.cfg.frameCap
    · obtain ⟨m, he, hA⟩ := encEscape_taken b s h
      have hu := s.cfg.unit_reserved h.2.1
      have hl : (s.cfg.unit b).length = 2 := by rw [hu]; rfl
      refine ⟨_, he, ?_⟩
      rw [← hl]
      rw [← hu] at hA
      exact .append b h.1 (by omega) m hA
    · exact ⟨s, encEscape_notTaken b s h, .rest⟩
  cases i with
  | nop => cases hi
  | encode pkt => exact absurd rfl (hd pkt).1
  | decode buf => cases hi
  | bindSink v => cases hi
  | encNosink pkt => exact absurd rfl (hd pkt).2
  | encStart =>
    show (∃ t, execEncStart s = _ ∧ _) ∨ (execEncStart s = _ ∧ _)
    by_cases h : s.enc.st = .idle ∧ s.enc.pkt ≠ none
    · by_cases hc : 1 ≤ s.cfg.frameCap
      · exact .inl ⟨_, execEncStart_taken s h.1 h.2 hc, .start h.1 h.2 hc⟩
      · refine .inr ⟨?_, .inl ⟨h.1, h.2, by omega⟩⟩
        unfold execEncStart
        rw [if_pos ⟨h.1, Option.isSome_iff_ne_none.mpr h.2⟩, EncUnit.put_outside _ _ _ (by show _ ≤ 0; omega)]
        rfl
    · refine .inl ⟨s, execEncStart_notTaken s ?_, .rest⟩
      by_cases h1 : s.enc.st = .idle
      · exact .inr (Decidable.not_not.mp fun h2 => h ⟨h1, h2⟩)
      · exact .inl h1
  | encEscapeS => exact .inl (escape _)
  | encEscapeE => exact .inl (escape _)
  | encEscapeX => exact .inl (escape _)
  | encPlain b =>
    show (∃ t, execEncPlain b s = _ ∧ _) ∨ _
    by_cases h : s.enc.sees s.cfg b ∧ b ∉ s.cfg.reserved ∧ s.enc.len + 2 ≤ s.cfg.frameCap
    · obtain ⟨m, he, hA⟩ := execEncPlain_taken b s h
      have hu := s.cfg.unit_plain h.2.1
      have hl : (s.cfg.unit b).length = 1 := by rw [hu]; rfl
      refine .inl ⟨_, he, ?_⟩
      rw [← hu] at hA
      have := EncMove.append (s := s) b h.1 (by omega) m hA
      rwa [hl] at this
    · exact .inl ⟨s, execEncPlain_notTaken b s h, .rest⟩
  | encDrop =>
    show (∃ t, execEncDrop s = _ ∧ _) ∨ _
    by_cases h : ∃ b, s.enc.sees s.cfg b ∧ ¬ s.enc.fits s.cfg b
    · obtain ⟨b, h1, h2⟩ := h
      exact .inl ⟨_, execEncDrop_taken s b h1 h2, .drop b h1 h2⟩
    · refine .inl ⟨s, execEncDrop_notTaken s fun b hb => ?_, .rest⟩
      exact Decidable.not_not.mp fun hf => h ⟨b, hb, hf⟩
  | encFinish =>
    show (∃ t, execEncFinish s = _ ∧ _) ∨ (execEncFinish s = _ ∧ _)
    by_cases h : s.enc.st = .body ∧ (s.enc.i = s.cfg.packetSize ∨ s.enc.trunc = true)
    · by_cases hl : s.enc.len < s.cfg.frameCap
      · exact .inl ⟨_, execEncFinish_taken s h.1 h.2 hl, .done h.1 h.2 hl⟩
      · refine .inr ⟨?_, .inr ⟨h.1, by omega⟩⟩
        unfold execEncFinish
        rw [if_pos h, EncUnit.put_outside _ _ _ (by omega)]
    · exact .inl ⟨s, execEncFinish_notTaken s h, .rest⟩
  | decScanStart => cases hi
  | decScanSkip b => cases hi
  | decBodyEsc => cases hi
  | decBodyEnd => cases hi
  | decBodyData b => cases hi
  | decEscS => cases hi
  | decEscE => cases hi
  | decEscX => cases hi
  | decEscEnd => cases hi
  | decEscBad b => cases hi
  | decDrainEnd => cases hi
  | decDrainSkip b => cases hi
  | decExhaust => cases hi

/-- A move of the encoder leaves everything but the encoder and the end of the sink's log. -/
theorem EncMove.frame {s t : State} (h : EncMove s t) :
    t.cfg = s.cfg ∧ t.sinkBound = s.sinkBound ∧ t.dec = s.dec ∧ t.inputs = s.inputs ∧ t.results = s.results ∧
    (t.sunk = s.sunk ∨ ∃ e : SinkEvent, t.sunk = s.sunk ++ [e] ∧ e.length = e.frame.length) := by
  cases h with
  | rest => exact ⟨rfl, rfl, rfl, rfl, rfl, .inl rfl⟩
  | start => exact ⟨rfl, rfl, rfl, rfl, rfl, .inl rfl⟩
  | append => exact ⟨rfl, rfl, rfl, rfl, rfl, .inl rfl⟩
  | drop => exact ⟨rfl, rfl, rfl, rfl, rfl, .inl rfl⟩
  | done => exact ⟨rfl, rfl, rfl, rfl, rfl, .inr ⟨_, rfl, by simp [Memory.slice_length]⟩⟩

end Sys2Proof.Machine
end

