-- ==== Sys2Proof/Laws/Frame.lean ====
section
/-! SUPPORT. What one unit and one pass of the decode loop can do: the lemmas that inductions over a packet or a buffer cite. -/

namespace Sys2Proof.Machine

/-- No unit holds S or E (K3). -/
theorem unit_holds_no_marker (c : Config) (hc : c.Admitted) (b : Byte) :
    c.startByte ∉ c.unit b ∧ c.endByte ∉ c.unit b := by
  obtain ⟨-, h2, h3, -, -, -, h7⟩ := hc.special_ne
  by_cases h : b ∈ c.reserved
  · rw [c.unit_reserved h]
    have := h7 (c.esc b) ((c.esc_mem_escaped b).mpr h)
    simp [h2, h3, Ne.symm this.1, Ne.symm this.2.1]
  · rw [c.unit_plain h]
    rw [Config.mem_reserved] at h
    simp only [not_or] at h
    simp [Ne.symm h.1, Ne.symm h.2.1]

/-- The length of the units of a packet: one byte for each packet byte and one more for each reserved one. -/
theorem units_length (c : Config) (p : List Byte) :
    (p.flatMap c.unit).length = p.length + p.countP (fun b => decide (b ∈ c.reserved)) := by
  induction p with
  | nil => rfl
  | cons b p ih =>
    rw [List.flatMap_cons, List.length_append, ih, Config.unit_length, List.length_cons, List.countP_cons]
    by_cases h : b ∈ c.reserved
    · simp only [h, if_true, decide_true]
      omega
    · simp only [h, if_false, decide_false]
      simp only [Bool.false_eq_true, if_false]
      omega

theorem ParseState.store_fields (c : Config) (q : ParseState) (v : Byte) :
    (q.store c v).st = q.st ∧ (q.store c v).pos = q.pos := by
  unfold ParseState.store
  split <;> exact ⟨rfl, rfl⟩

theorem ParseState.finish_consumed (c : Config) (q : ParseState) : (q.finish c).consumed = q.pos := by
  unfold ParseState.finish
  split <;> rfl

/-- A pass that goes on leaves the count alone. -/
theorem parseByte_goesOn (c : Config) (q q' : ParseState) (b : Byte) (h : parseByte c q b = .inl q') :
    q'.pos = q.pos := by
  unfold parseByte at h
  repeat' split at h
  all_goals first
    | (cases h; first | rfl | exact (ParseState.store_fields _ _ _).2)
    | cases h

/-- A pass that ends the DECODE reports the count, and a packet exactly when it is valid. -/
theorem parseByte_ends (c : Config) (q : ParseState) (b : Byte) (r : Result) (h : parseByte c q b = .inr r) :
    r = q.finish c ∨ r = Result.invalid q.pos := by
  unfold parseByte at h
  repeat' split at h
  all_goals first
    | (cases h; first | exact .inl rfl | exact .inr rfl)
    | cases h

end Sys2Proof.Machine
end

