-- ==== Sys2Proof/Laws/PerInstr.lean ====
section
/-! SUPPORT. The family Presented, per instruction: the encoder of instructions presents each row to the unit the opcode table names
(30_encoding.md R62, R63, R70), and never as an idle unit. -/

namespace Sys2Proof.Laws.Presented

/-- Which agent a presentation goes to: the port, the encoder, the decoder, or nobody. -/
def place : Present → Nat
  | .port _ _ => 0
  | .encoderStart => 1
  | .encoderByte _ _ => 1
  | .encoderFinish => 1
  | .decoderByte _ _ => 2
  | .decoderEnd _ => 2
  | .encoderIdle => 3
  | .decoderIdle => 3

/-- Under every configuration the instruction is presented to the port, the encoder or the decoder, the two units only for their
own rows. -/
def Statement (i : Instr) : Prop :=
  ∀ c : Config, place (Sys2Proof.encode c i) ≤ 2 ∧ (place (Sys2Proof.encode c i) = 1 → i.isEncoderRow = true) ∧
    (place (Sys2Proof.encode c i) = 2 → i.isDecoderRow = true)

theorem presented (i : Instr) : Statement i := by
  intro c
  cases i <;> simp [place, Sys2Proof.encode, Instr.isEncoderRow, Instr.isDecoderRow]

theorem nop : Statement .nop := presented _
theorem encode (pkt : List Byte) : Statement (.encode pkt) := presented _
theorem decode (buf : List Byte) : Statement (.decode buf) := presented _
theorem bindSink (v : Bool) : Statement (.bindSink v) := presented _
theorem encNosink (pkt : List Byte) : Statement (.encNosink pkt) := presented _
theorem encStart : Statement .encStart := presented _
theorem encEscapeS : Statement .encEscapeS := presented _
theorem encEscapeE : Statement .encEscapeE := presented _
theorem encEscapeX : Statement .encEscapeX := presented _
theorem encPlain (b : Byte) : Statement (.encPlain b) := presented _
theorem encDrop : Statement .encDrop := presented _
theorem encFinish : Statement .encFinish := presented _
theorem decScanStart : Statement .decScanStart := presented _
theorem decScanSkip (b : Byte) : Statement (.decScanSkip b) := presented _
theorem decBodyEsc : Statement .decBodyEsc := presented _
theorem decBodyEnd : Statement .decBodyEnd := presented _
theorem decBodyData (b : Byte) : Statement (.decBodyData b) := presented _
theorem decEscS : Statement .decEscS := presented _
theorem decEscE : Statement .decEscE := presented _
theorem decEscX : Statement .decEscX := presented _
theorem decEscEnd : Statement .decEscEnd := presented _
theorem decEscBad (b : Byte) : Statement (.decEscBad b) := presented _
theorem decDrainEnd : Statement .decDrainEnd := presented _
theorem decDrainSkip (b : Byte) : Statement (.decDrainSkip b) := presented _
theorem decExhaust : Statement .decExhaust := presented _

end Sys2Proof.Laws.Presented
end

