-- ==== Sys2Proof/Laws/Step.lean ====
section
/-! SUPPORT. What a step is made of: the turn that comes next, the state it acts on, and what each turn runs. -/

namespace Sys2Proof.Machine

theorem step_admitted (s : State) (h : s.cfg.Admitted) : step s = perform (schedule s).1 (schedule s).2 := by
  unfold step
  rw [(Config.broken_eq_none s.cfg).mpr h]

/-- A step of a configuration that is not admitted is Fault 1. -/
theorem step_notAdmitted (s : State) (h : ¬ s.cfg.Admitted) :
    ∃ k, s.cfg.broken = some k ∧ step s = .fault (.configRefused k) := by
  cases hb : s.cfg.broken with
  | none => exact absurd ((Config.broken_eq_none s.cfg).mp hb) h
  | some k => exact ⟨k, rfl, by unfold step; rw [hb]⟩

theorem blockedBy_none (s : State) (w : PortWord) (h1 : ¬ (w.op = 1 ∧ s.enc.busy = true))
    (h2 : ¬ (w.op = 2 ∧ s.dec.busy = true)) : blockedBy s w = none := by
  unfold blockedBy
  rw [if_neg h1, if_neg h2]

/-- Whose turn it is: the head of the inputs, the unit an operation waits for, or, with no input, a busy unit or nobody. -/
theorem schedule_cases (s : State) :
    (s.inputs = [] ∧ s.enc.busy = true ∧ schedule s = (.encoderTurn, s)) ∨
    (s.inputs = [] ∧ s.enc.busy = false ∧ s.dec.busy = true ∧ schedule s = (.decoderTurn, s)) ∨
    (s.inputs = [] ∧ s.enc.busy = false ∧ s.dec.busy = false ∧ schedule s = (.request PortWord.quiet, s)) ∨
    (∃ a rest, s.inputs = a :: rest ∧ schedule s = (a, { s with inputs := rest }) ∧
      ∀ w, a = .request w ∨ a = .serial w → blockedBy s w = none) ∨
    (∃ w rest, (s.inputs = .request w :: rest ∨ s.inputs = .serial w :: rest) ∧
      ((w.op = 1 ∧ s.enc.busy = true ∧ schedule s = (.encoderTurn, s)) ∨
       (w.op = 2 ∧ s.dec.busy = true ∧ schedule s = (.decoderTurn, s)))) := by
  have blocked : ∀ (w : PortWord) (turn : Input), blockedBy s w = some turn →
      (w.op = 1 ∧ s.enc.busy = true ∧ turn = .encoderTurn) ∨ (w.op = 2 ∧ s.dec.busy = true ∧ turn = .decoderTurn) := by
    intro w turn h
    unfold blockedBy at h
    split at h
    · rename_i hw
      exact .inl ⟨hw.1, hw.2, (Option.some.inj h).symm⟩
    · split at h
      · rename_i hw
        exact .inr ⟨hw.1, hw.2, (Option.some.inj h).symm⟩
      · cases h
  unfold schedule
  cases hi : s.inputs with
  | nil =>
    cases he : s.enc.busy with
    | true => exact .inl ⟨rfl, rfl, rfl⟩
    | false =>
      cases hd : s.dec.busy with
      | true => exact .inr (.inl ⟨rfl, rfl, rfl, rfl⟩)
      | false => exact .inr (.inr (.inl ⟨rfl, rfl, rfl, rfl⟩))
  | cons a rest =>
    refine .inr (.inr (.inr ?_))
    cases a with
    | request w =>
      cases hw : blockedBy s w with
      | none =>
        refine .inl ⟨_, rest, rfl, by simp only [hw], ?_⟩
        rintro w' (h | h)
        · cases h
          exact hw
        · cases h
      | some turn =>
        refine .inr ⟨w, rest, .inl rfl, ?_⟩
        rcases blocked w turn hw with ⟨h1, h2, rfl⟩ | ⟨h1, h2, rfl⟩
        · exact .inl ⟨h1, h2, by simp only [hw]⟩
        · exact .inr ⟨h1, h2, by simp only [hw]⟩
    | serial w =>
      cases hw : blockedBy s w with
      | none =>
        refine .inl ⟨_, rest, rfl, by simp only [hw], ?_⟩
        rintro w' (h | h)
        · cases h
        · cases h
          exact hw
      | some turn =>
        refine .inr ⟨w, rest, .inr rfl, ?_⟩
        rcases blocked w turn hw with ⟨h1, h2, rfl⟩ | ⟨h1, h2, rfl⟩
        · exact .inl ⟨h1, h2, by simp only [hw]⟩
        · exact .inr ⟨h1, h2, by simp only [hw]⟩
    | encoderTurn => exact .inl ⟨_, rest, rfl, rfl, fun w h => by rcases h with h | h <;> cases h⟩
    | decoderTurn => exact .inl ⟨_, rest, rfl, rfl, fun w h => by rcases h with h | h <;> cases h⟩
    | reset => exact .inl ⟨_, rest, rfl, rfl, fun w h => by rcases h with h | h <;> cases h⟩
    | changeBuf => exact .inl ⟨_, rest, rfl, rfl, fun w h => by rcases h with h | h <;> cases h⟩
    | shareDest => exact .inl ⟨_, rest, rfl, rfl, fun w h => by rcases h with h | h <;> cases h⟩

/-- The state a turn acts on differs from the machine's by its inputs at most. -/
theorem schedule_state (s : State) : ∃ rest, (schedule s).2 = { s with inputs := rest } := by
  rcases schedule_cases s with h | h | h | ⟨a, rest, -, h, -⟩ | ⟨w, rest, -, h | h⟩
  · exact ⟨s.inputs, by rw [h.2.2]⟩
  · exact ⟨s.inputs, by rw [h.2.2.2]⟩
  · exact ⟨s.inputs, by rw [h.2.2.2]⟩
  · exact ⟨rest, by rw [h]⟩
  · exact ⟨s.inputs, by rw [h.2.2]⟩
  · exact ⟨s.inputs, by rw [h.2.2]⟩

/-- Two bits have four values. -/
theorem op_cases (op : BitVec 2) : op = 0 ∨ op = 1 ∨ op = 2 ∨ op = 3 := by
  revert op
  decide

/-- What the encoder presents decodes to an encoder step, or to none. -/
theorem encoderPresent_decode (c : Config) (u : EncUnit) :
    (∃ i, decode c (encoderPresent c u) = .ok i ∧ i.isEncoderRow = true ∧ ∀ p, i ≠ .encode p ∧ i ≠ .encNosink p) ∨
    decode c (encoderPresent c u) = .error .encoderIdle := by
  have row : ∀ (b : Byte) (f : Bool), (decodeEncoderByte c b f).isEncoderRow = true ∧
      ∀ p, decodeEncoderByte c b f ≠ .encode p ∧ decodeEncoderByte c b f ≠ .encNosink p := by
    intro b f
    unfold decodeEncoderByte
    split
    · split <;> exact ⟨rfl, fun p => ⟨(fun h => nomatch h), (fun h => nomatch h)⟩⟩
    · exact ⟨rfl, fun p => ⟨(fun h => nomatch h), (fun h => nomatch h)⟩⟩
  unfold encoderPresent
  split
  · split
    · exact .inl ⟨_, rfl, rfl, fun p => ⟨(fun h => nomatch h), (fun h => nomatch h)⟩⟩
    · exact .inr rfl
  · split
    · exact .inl ⟨_, rfl, rfl, fun p => ⟨(fun h => nomatch h), (fun h => nomatch h)⟩⟩
    · split
      · exact .inl ⟨_, rfl, row _ _⟩
      · exact .inr rfl
  · exact .inr rfl

/-- What the decoder presents decodes to a decoder step, or to none. -/
theorem decoderPresent_decode (c : Config) (u : DecUnit) :
    (∃ i, decode c (decoderPresent u) = .ok i ∧ i.isDecoderRow = true ∧ ∀ buf, i ≠ .decode buf) ∨
    decode c (decoderPresent u) = .error .decoderIdle := by
  have row : ∀ (st : DecState) (b : Byte), (decodeDecoderByte c st b).isDecoderRow = true ∧
      ∀ buf, decodeDecoderByte c st b ≠ .decode buf := by
    intro st b
    unfold decodeDecoderByte
    split <;> exact ⟨rfl, fun p h => nomatch h⟩
  unfold decoderPresent
  split
  · exact .inr rfl
  · split
    · exact .inl ⟨_, rfl, row _ _⟩
    · exact .inl ⟨_, rfl, rfl, fun p h => nomatch h⟩

/-- A turn of the encoder: one of its moves, or the fault of ENC_START or ENC_FINISH past enc_buf. -/
theorem perform_encoderTurn (s : State) :
    (∃ t, perform .encoderTurn s = .next t ∧ EncMove s t) ∨
    (perform .encoderTurn s = .fault .outOfBounds ∧
      ((s.enc.st = .idle ∧ s.enc.pkt ≠ none ∧ s.cfg.frameCap = 0) ∨
       (s.enc.st = .body ∧ s.cfg.frameCap ≤ s.enc.len))) := by
  show (∃ t, run (encoderPresent s.cfg s.enc) s = _ ∧ _) ∨ (run (encoderPresent s.cfg s.enc) s = _ ∧ _)
  unfold run
  rcases encoderPresent_decode s.cfg s.enc with ⟨i, h, hi, hd⟩ | h
  · rw [h]
    exact exec_encoder_move i hi hd s
  · rw [h]
    exact .inl ⟨s, rfl, .rest⟩

/-- A turn of the decoder: one of its moves. -/
theorem perform_decoderTurn (s : State) : ∃ t, perform .decoderTurn s = .next t ∧ DecMove s t := by
  show ∃ t, run (decoderPresent s.dec) s = _ ∧ _
  unfold run
  rcases decoderPresent_decode s.cfg s.dec with ⟨i, h, hi, hd⟩ | h
  · rw [h]
    exact exec_decoder_move i hi hd s
  · rw [h]
    exact ⟨s, rfl, .rest⟩

end Sys2Proof.Machine
end

