-- ==== Sys2Proof/Laws/Turn.lean ====
section
/-! SUPPORT. Everything one turn can do, said once: where each kind of input takes the machine, and when it faults. Later proofs cite
`perform_cases`, `perform_next`, `perform_fault` and `step_next` and unfold neither `perform` nor `step`. -/

namespace Sys2Proof.Machine

/-- An admitted machine with no input and no operation in progress stays as it is. -/
theorem idle_step (s : State) (h : s.cfg.Admitted) (hi : s.inputs = []) (he : s.enc.busy = false)
    (hd : s.dec.busy = false) : step s = .next s := by
  rw [step_admitted s h]
  have : schedule s = (.request PortWord.quiet, s) := by simp [schedule, hi, he, hd]
  rw [this]
  rfl

/-- The head of the inputs is taken, unless it is an operation that waits for its unit. -/
theorem schedule_head (s : State) (a : Input) (rest : List Input) (hi : s.inputs = a :: rest)
    (h : ∀ w, a = .request w ∨ a = .serial w → blockedBy s w = none) :
    schedule s = (a, { s with inputs := rest }) := by
  unfold schedule
  rw [hi]
  cases a with
  | request w => simp only [h w (.inl rfl)]
  | serial w => simp only [h w (.inr rfl)]
  | encoderTurn => rfl
  | decoderTurn => rfl
  | reset => rfl
  | changeBuf => rfl
  | shareDest => rfl

/-- What the port reads from each op code. -/
theorem decodePort_cases (sb : Bool) (w : PortWord) :
    decodePort sb w = .nop ∨ (decodePort sb w = .encode w.data ∧ sb = true ∧ w.op = 1) ∨
    (decodePort sb w = .encNosink w.data ∧ sb = false ∧ w.op = 1) ∨ (decodePort sb w = .decode w.data ∧ w.op = 2) ∨
    (decodePort sb w = .bindSink w.v ∧ w.op = 3) := by
  unfold decodePort
  rcases op_cases w.op with h | h | h | h
  · exact .inl (by simp [h])
  · cases sb
    · exact .inr (.inr (.inl (by simp [h])))
    · exact .inr (.inl (by simp [h]))
  · exact .inr (.inr (.inr (.inl (by simp [h]))))
  · exact .inr (.inr (.inr (.inr (by simp [h]))))

/-- Where an operation performed at once takes the machine. -/
inductive PortDone (s : State) : State → Prop where
  | same : PortDone s s
  | emit (f : List Byte) : PortDone s (s.emit f)
  | give (r : Result) : PortDone s (s.give r)
  | bind (v : Bool) (h : s.enc.busy = false) : PortDone s { s with sinkBound := v }

/-- An operation performed at once goes on, or is one of Faults 2 and 3. -/
theorem run_port (s : State) (w : PortWord) :
    (∃ t, run (.port s.sinkBound w) s = .next t ∧ PortDone s t ∧
      (t.sinkBound ≠ s.sinkBound → w.op = 3 ∧ t.sinkBound = w.v)) ∨
    (run (.port s.sinkBound w) s = .fault (.operandRefused .encode w.data.length) ∧ w.op = 1 ∧
      w.data.length ≠ s.cfg.packetSize) ∨
    (run (.port s.sinkBound w) s = .fault (.operandRefused .decode w.data.length) ∧ w.op = 2 ∧
      s.cfg.bufFits w.data.length = false) ∨
    (run (.port s.sinkBound w) s = .fault .bindRace ∧ w.op = 3 ∧ s.enc.busy = true) := by
  have hrun : run (.port s.sinkBound w) s = exec (decodePort s.sinkBound w) s := rfl
  rw [hrun]
  rcases decodePort_cases s.sinkBound w with h | ⟨h, hb, ho⟩ | ⟨h, hb, ho⟩ | ⟨h, ho⟩ | ⟨h, ho⟩ <;> rw [h]
  · exact .inl ⟨s, rfl, .same, fun h => absurd rfl h⟩
  · by_cases hl : w.data.length = s.cfg.packetSize
    · refine .inl ⟨_, ?_, .emit (encodeFrame s.cfg w.data), fun h => absurd rfl h⟩
      simp [exec, execEncode, pktRefused, hl, hb]
    · refine .inr (.inl ⟨?_, ho, hl⟩)
      simp [exec, execEncode, pktRefused, hl]
  · by_cases hl : w.data.length = s.cfg.packetSize
    · refine .inl ⟨_, ?_, .same, fun h => absurd rfl h⟩
      simp [exec, execEncNosink, pktRefused, hl]
    · refine .inr (.inl ⟨?_, ho, hl⟩)
      simp [exec, execEncNosink, pktRefused, hl]
  · cases hl : s.cfg.bufFits w.data.length with
    | true =>
      refine .inl ⟨_, ?_, .give (decodeFrame s.cfg w.data), fun h => absurd rfl h⟩
      simp [exec, execDecode, bufRefused, hl]
    | false =>
      refine .inr (.inr (.inl ⟨?_, ho, rfl⟩))
      simp [exec, execDecode, bufRefused, hl]
  · cases hb : s.enc.busy with
    | true => exact .inr (.inr (.inr ⟨by simp [exec, execBindSink, hb], ho, rfl⟩))
    | false => exact .inl ⟨_, by simp [exec, execBindSink, hb], .bind w.v hb, fun _ => ⟨ho, rfl⟩⟩

/-- Where a turn takes the machine. -/
inductive Performed (s : State) : Input → State → Prop where
  | port (a : Input) (w : PortWord) (h : a = .request w ∨ a = .serial w) (t : State) (ht : PortDone s t)
      (hb : t.sinkBound ≠ s.sinkBound → w.op = 3 ∧ t.sinkBound = w.v) : Performed s a t
  | beginEncode (w : PortWord) (hw : w.op = 1) (hs : s.sinkBound = true) (hl : w.data.length = s.cfg.packetSize) :
      Performed s (.serial w) { s with enc := { EncUnit.idle with pkt := some w.data } }
  | beginDecode (w : PortWord) (hw : w.op = 2) (hf : s.cfg.bufFits w.data.length = true) :
      Performed s (.serial w)
        (s.withDec { st := .scan, buf := some w.data, asm := [], idx := 0, ovf := false, pos := 0 })
  | encoder (t : State) (h : EncMove s t) : Performed s .encoderTurn t
  | decoder (t : State) (h : DecMove s t) : Performed s .decoderTurn t
  | reset : Performed s .reset s.applyReset
  | harmless (hd : s.dec.busy = false) : Performed s .changeBuf s

/-- When a turn faults, and with which fault. -/
inductive Failed (s : State) : Input → Fault → Prop where
  | pkt (a : Input) (w : PortWord) (h : a = .request w ∨ a = .serial w) (ho : w.op = 1)
      (hl : w.data.length ≠ s.cfg.packetSize) : Failed s a (.operandRefused .encode w.data.length)
  | buf (a : Input) (w : PortWord) (h : a = .request w ∨ a = .serial w) (ho : w.op = 2)
      (hl : s.cfg.bufFits w.data.length = false) : Failed s a (.operandRefused .decode w.data.length)
  | bind (a : Input) (w : PortWord) (h : a = .request w ∨ a = .serial w) (ho : w.op = 3)
      (hb : s.enc.busy = true) : Failed s a .bindRace
  | changed (hd : s.dec.busy = true) : Failed s .changeBuf .bufferRace
  | shared : Failed s .shareDest .bufferRace
  | bounds (h : (s.enc.st = .idle ∧ s.enc.pkt ≠ none ∧ s.cfg.frameCap = 0) ∨
      (s.enc.st = .body ∧ s.cfg.frameCap ≤ s.enc.len)) : Failed s .encoderTurn .outOfBounds

/-- A turn goes on or faults; it is never refused. -/
theorem perform_cases (a : Input) (s : State) :
    (∃ t, perform a s = .next t ∧ Performed s a t) ∨ (∃ f, perform a s = .fault f ∧ Failed s a f) := by
  have port : ∀ w, (a = .request w ∨ a = .serial w) →
      (∃ t, run (.port s.sinkBound w) s = .next t ∧ Performed s a t) ∨
      (∃ f, run (.port s.sinkBound w) s = .fault f ∧ Failed s a f) := by
    intro w ha
    rcases run_port s w with ⟨t, h, ht, hb⟩ | ⟨h, h1, h2⟩ | ⟨h, h1, h2⟩ | ⟨h, h1, h2⟩
    · exact .inl ⟨t, h, .port a w ha t ht hb⟩
    · exact .inr ⟨_, h, .pkt a w ha h1 h2⟩
    · exact .inr ⟨_, h, .buf a w ha h1 h2⟩
    · exact .inr ⟨_, h, .bind a w ha h1 h2⟩
  cases a with
  | request w => exact port w (.inl rfl)
  | serial w =>
    show (∃ t, serialOp w s = _ ∧ _) ∨ (∃ f, serialOp w s = _ ∧ _)
    unfold serialOp
    split
    · rename_i h
      by_cases hl : w.data.length = s.cfg.packetSize
      · exact .inl ⟨_, by simp [Machine.beginEncode, pktRefused, hl], .beginEncode w h.1 h.2 hl⟩
      · exact .inr ⟨_, by simp [Machine.beginEncode, pktRefused, hl], .pkt _ w (.inr rfl) h.1 hl⟩
    · split
      · rename_i h
        cases hl : s.cfg.bufFits w.data.length with
        | true => exact .inl ⟨_, by simp [Machine.beginDecode, bufRefused, hl], .beginDecode w h hl⟩
        | false => exact .inr ⟨_, by simp [Machine.beginDecode, bufRefused, hl], .buf _ w (.inr rfl) h hl⟩
      · exact port w (.inr rfl)
  | encoderTurn =>
    rcases perform_encoderTurn s with ⟨t, h, ht⟩ | ⟨h, h2⟩
    · exact .inl ⟨t, h, .encoder t ht⟩
    · exact .inr ⟨_, h, .bounds h2⟩
  | decoderTurn =>
    obtain ⟨t, h, ht⟩ := perform_decoderTurn s
    exact .inl ⟨t, h, .decoder t ht⟩
  | reset => exact .inl ⟨_, rfl, .reset⟩
  | changeBuf =>
    cases hd : s.dec.busy with
    | true => exact .inr ⟨_, by simp [perform, bufferHazard, hd], .changed hd⟩
    | false => exact .inl ⟨_, by simp [perform, bufferHazard, hd], .harmless hd⟩
  | shareDest => exact .inr ⟨_, rfl, .shared⟩

theorem perform_next {a : Input} {s t : State} (h : perform a s = .next t) : Performed s a t := by
  rcases perform_cases a s with ⟨t', h', hp⟩ | ⟨f, h', -⟩
  · rw [h] at h'
    cases h'
    exact hp
  · rw [h] at h'
    cases h'

theorem perform_fault {a : Input} {s : State} {f : Fault} (h : perform a s = .fault f) : Failed s a f := by
  rcases perform_cases a s with ⟨t', h', -⟩ | ⟨f', h', hf⟩
  · rw [h] at h'
    cases h'
  · rw [h] at h'
    cases h'
    exact hf

/-- A step that goes on is the turn of an admitted machine. -/
theorem step_next {s t : State} (h : step s = .next t) :
    s.cfg.Admitted ∧ perform (schedule s).1 (schedule s).2 = .next t := by
  by_cases ha : s.cfg.Admitted
  · exact ⟨ha, by rw [← step_admitted s ha]; exact h⟩
  · obtain ⟨k, -, hk⟩ := step_notAdmitted s ha
    rw [h] at hk
    cases hk

theorem PortDone.frame {s t : State} (h : PortDone s t) :
    t.cfg = s.cfg ∧ t.enc = s.enc ∧ t.dec = s.dec ∧ t.inputs = s.inputs := by
  cases h <;> exact ⟨rfl, rfl, rfl, rfl⟩

/-- No turn writes the parameters, and only taking its input changes the inputs. -/
theorem Performed.frame {s t : State} {a : Input} (h : Performed s a t) : t.cfg = s.cfg ∧ t.inputs = s.inputs := by
  cases h with
  | port _ w h _ ht hb => exact ⟨ht.frame.1, ht.frame.2.2.2⟩
  | beginEncode => exact ⟨rfl, rfl⟩
  | beginDecode => exact ⟨rfl, rfl⟩
  | encoder t h => exact ⟨h.frame.1, h.frame.2.2.2.1⟩
  | decoder t h => exact ⟨h.frame.1, h.frame.2.2.2.1⟩
  | reset => exact ⟨rfl, rfl⟩
  | harmless => exact ⟨rfl, rfl⟩

end Sys2Proof.Machine
end

