-- ==== Sys2Proof/Tests/Slice0.lean ====
section
/-! SUPPORT. Tests: ill-formed instructions, words written out from the spec's encodings, the vectors of 95_test_vectors.md, one step of
each instruction, and a witness for the hypotheses of each obligation. Expected values are the spec's, by rule or vector. -/

namespace Sys2Proof.Tests

open Sys2Proof.Machine

/-! ## Configurations and states -/

/-- P12 of 95_test_vectors.md. -/
def p12 : List Byte := [0x00, 0x01, 0x02, 0x03, 0x04, 0x05, 0x06, 0x07, 0x08, 0x09, 0x0A, 0x0B]

/-- RC-T of 95_test_vectors.md: RC with C = 10. -/
def rcT : Config := { Config.rc with frameCap := 10 }

/-- RC-D of 95_test_vectors.md: RC with P = DRAIN. -/
def rcD : Config := { Config.rc with escEndPolicy := .drain }

/-- RC's bytes with small sizes: N = 5 (the least), C = 12 = 2N + 2, M = 20. -/
def small : Config := { Config.rc with packetSizeMinus5 := 0, frameCap := 12, maxBuf := some 20 }

/-- A block of configuration `c` with a sink bound and the inputs given. -/
def bound (c : Config) (inputs : List Input) : State :=
  { State.resetOf c with sinkBound := true, inputs := inputs }

/-- enc_buf with S at index 0 and 11 at the indices up to `n`. -/
def filled (n : Nat) : Memory := (List.range n).map fun a => (a, if a = 0 then 0x7E else 0x11)

/-- `small` with a byte-serial ENCODE of `p` in BODY, `len` bytes written and the byte at index `i` next. -/
def inBody (p : List Byte) (len i : Nat) (trunc : Bool) : State :=
  { bound small [.encoderTurn] with
    enc := { st := .body, pkt := some p, buf := filled len, len := len, i := i, trunc := trunc } }

/-- `small` with a byte-serial DECODE of `buf` in state `st`, `idx` bytes of 22 stored and the byte at `pos` next. -/
def parsing (st : DecState) (buf : List Byte) (idx pos : Nat) : State :=
  { bound small [.decoderTurn] with
    dec :=
      { st := st
        buf := some buf
        asm := (List.range idx).map fun a => (a, 0x22)
        idx := idx
        ovf := false
        pos := pos } }

/-- The same state under DRAIN. -/
def draining (s : State) : State := { s with cfg := { s.cfg with escEndPolicy := .drain } }

/-! ## Ill-formed instructions are refused (R71, R62, R63), and their neighbours are not -/

theorem test_wf_encode_short : (Instr.encode [1, 2, 3, 4]).wf small = false := by decide
theorem test_wf_encode_long : (Instr.encode [1, 2, 3, 4, 5, 6]).wf small = false := by decide
theorem test_wf_encode_exact : (Instr.encode [1, 2, 3, 4, 5]).wf small = true := by decide
theorem test_wf_nosink_short : (Instr.encNosink []).wf small = false := by decide
theorem test_wf_decode_long : (Instr.decode (List.replicate 21 0)).wf small = false := by decide
theorem test_wf_decode_full : (Instr.decode (List.replicate 20 0)).wf small = true := by decide
theorem test_wf_plain_reserved : (Instr.encPlain 0x7D).wf small = false := by decide
theorem test_wf_plain_escaped : (Instr.encPlain 0x9E).wf small = true := by decide
theorem test_wf_skip_start : (Instr.decScanSkip 0x7E).wf small = false := by decide
theorem test_wf_data_end : (Instr.decBodyData 0x7F).wf small = false := by decide
theorem test_wf_data_start : (Instr.decBodyData 0x7E).wf small = true := by decide
theorem test_wf_bad_escaped : (Instr.decEscBad 0x9D).wf small = false := by decide
theorem test_wf_bad_end : (Instr.decEscBad 0x7F).wf small = false := by decide
theorem test_wf_drain_end : (Instr.decDrainSkip 0x7F).wf small = false := by decide

/-! ## Each row's word, written out bit by bit (R62, R63, R70; RC's bytes, R10) -/

theorem test_word_nop : decode .rc (.port true { op := 0b00, v := true, data := [1] }) = .ok .nop := rfl
theorem test_word_encode : decode .rc (.port true { op := 0b01, v := false, data := [0x7E] }) = .ok (.encode [0x7E]) := rfl
theorem test_word_decode : decode .rc (.port true { op := 0b10, v := false, data := [0x7E] }) = .ok (.decode [0x7E]) := rfl
theorem test_word_bindSink : decode .rc (.port false { op := 0b11, v := true, data := [] }) = .ok (.bindSink true) := rfl
theorem test_word_encNosink :
    decode .rc (.port false { op := 0b01, v := false, data := [0x7E] }) = .ok (.encNosink [0x7E]) := rfl
theorem test_word_encStart : decode .rc .encoderStart = .ok .encStart := rfl
theorem test_word_encEscapeS : decode .rc (.encoderByte 0b01111110 true) = .ok .encEscapeS := rfl
theorem test_word_encEscapeE : decode .rc (.encoderByte 0b01111111 true) = .ok .encEscapeE := rfl
theorem test_word_encEscapeX : decode .rc (.encoderByte 0b01111101 true) = .ok .encEscapeX := rfl
theorem test_word_encPlain : decode .rc (.encoderByte 0b10011110 true) = .ok (.encPlain 0x9E) := rfl
theorem test_word_encDrop : decode .rc (.encoderByte 0b01111110 false) = .ok .encDrop := rfl
theorem test_word_encFinish : decode .rc .encoderFinish = .ok .encFinish := rfl
theorem test_word_decScanStart : decode .rc (.decoderByte .scan 0b01111110) = .ok .decScanStart := rfl
theorem test_word_decScanSkip : decode .rc (.decoderByte .scan 0b01111111) = .ok (.decScanSkip 0x7F) := rfl
theorem test_word_decBodyEsc : decode .rc (.decoderByte .body 0b01111101) = .ok .decBodyEsc := rfl
theorem test_word_decBodyEnd : decode .rc (.decoderByte .body 0b01111111) = .ok .decBodyEnd := rfl
theorem test_word_decBodyData : decode .rc (.decoderByte .body 0b01111110) = .ok (.decBodyData 0x7E) := rfl
theorem test_word_decEscS : decode .rc (.decoderByte .escd 0b10011110) = .ok .decEscS := rfl
theorem test_word_decEscE : decode .rc (.decoderByte .escd 0b10011111) = .ok .decEscE := rfl
theorem test_word_decEscX : decode .rc (.decoderByte .escd 0b10011101) = .ok .decEscX := rfl
theorem test_word_decEscEnd : decode .rc (.decoderByte .escd 0b01111111) = .ok .decEscEnd := rfl
theorem test_word_decEscBad : decode .rc (.decoderByte .escd 0b01111101) = .ok (.decEscBad 0x7D) := rfl
theorem test_word_decDrainEnd : decode .rc (.decoderByte .drain 0b01111111) = .ok .decDrainEnd := rfl
theorem test_word_decDrainSkip : decode .rc (.decoderByte .drain 0b01111110) = .ok (.decDrainSkip 0x7E) := rfl
theorem test_word_decExhaust : decode .rc (.decoderEnd .escd) = .ok .decExhaust := rfl
theorem test_word_idle : decode .rc .encoderIdle = .error .encoderIdle ∧ decode .rc .decoderIdle = .error .decoderIdle :=
  ⟨rfl, rfl⟩

/-! ## Vectors of 95_test_vectors.md -/

theorem test_EV2 :
    encodeFrame Config.rc [0x7E, 0x7F, 0x7D, 0x7E, 0x7F, 0x7D, 0x7E, 0x7F, 0x7D, 0x7E, 0x7F, 0x7D] =
      [0x7E, 0x7D, 0x9E, 0x7D, 0x9F, 0x7D, 0x9D, 0x7D, 0x9E, 0x7D, 0x9F, 0x7D, 0x9D, 0x7D, 0x9E, 0x7D, 0x9F, 0x7D,
        0x9D, 0x7D, 0x9E, 0x7D, 0x9F, 0x7D, 0x9D, 0x7F] := by decide
theorem test_EV7 :
    encodeFrame rcT [0x00, 0x01, 0x02, 0x03, 0x04, 0x05, 0x06, 0x7E, 0x08, 0x09, 0x0A, 0x0B] =
      [0x7E, 0x00, 0x01, 0x02, 0x03, 0x04, 0x05, 0x06, 0x7F] := by decide
theorem test_EV8 : encodeFrame { Config.rc with frameCap := 2 } p12 = [0x7E, 0x7F] := by decide
theorem test_DV6 :
    decodeFrame Config.rc ([0x7F, 0x7D, 0x9E, 0x7E] ++ p12 ++ [0x7F]) =
      { valid := true, consumed := 17, pkt := some p12 } := by decide
theorem test_DV10 :
    decodeFrame Config.rc ([0x7E] ++ p12 ++ [0x0C, 0x7F]) = { valid := false, consumed := 15, pkt := none } := by decide
theorem test_DV12 :
    decodeFrame Config.rc
        [0x7E, 0x7D, 0x9F, 0x7D, 0x9D, 0x7D, 0x9E, 0x03, 0x04, 0x05, 0x06, 0x07, 0x08, 0x09, 0x0A, 0x0B, 0x7F] =
      { valid := true, consumed := 17,
        pkt := some [0x7F, 0x7D, 0x7E, 0x03, 0x04, 0x05, 0x06, 0x07, 0x08, 0x09, 0x0A, 0x0B] } := by decide
theorem test_DV13 :
    decodeFrame Config.rc [0x7E, 0x00, 0x7D, 0x41, 0x05, 0x06, 0x7F, 0x99] =
      { valid := false, consumed := 7, pkt := none } := by decide
theorem test_DV14 :
    decodeFrame Config.rc [0x7E, 0x00, 0x7D, 0x7F, 0x01] = { valid := false, consumed := 4, pkt := none } ∧
    decodeFrame rcD [0x7E, 0x00, 0x7D, 0x7F, 0x01] = { valid := false, consumed := 5, pkt := none } ∧
    decodeFrame rcD [0x7E, 0x00, 0x7D, 0x7F, 0x01, 0x7F, 0x7E] =
      { valid := false, consumed := 6, pkt := none } := by decide
theorem test_DV17 :
    decodeFrame Config.rc ([0x7E, 0x01, 0x7D, 0x7E] ++ p12 ++ [0x7F]) =
      { valid := false, consumed := 17, pkt := none } := by decide
theorem test_DV18 :
    decodeFrame Config.rc [0x7E, 0x00, 0x7E, 0x01, 0x02, 0x03, 0x04, 0x05, 0x06, 0x07, 0x08, 0x09, 0x0A, 0x7F] =
      { valid := true, consumed := 14,
        pkt := some [0x00, 0x7E, 0x01, 0x02, 0x03, 0x04, 0x05, 0x06, 0x07, 0x08, 0x09, 0x0A] } := by decide
theorem test_KV2 : { Config.rc with endByte := 0x7E }.broken = some .k1 := by decide
theorem test_KV3 : { Config.rc with escOffset := 0 }.broken = some .k2 := by decide
theorem test_KV5 :
    { Config.rc with startByte := 0x10, endByte := 0x20, escByte := 0x30, escOffset := 0x10 }.broken = some .k3 := by
  decide
theorem test_KV6 : { Config.rc with startByte := 0xF0, endByte := 0xF1, escByte := 0xF2 }.Admitted := by decide
theorem test_KV7 : { Config.rc with frameCap := 1 }.broken = some .k4 := by decide

/-! ## One step of each instruction -/

theorem test_nop : exec .nop (bound small []) = .next (bound small []) := rfl
theorem test_encode :
    exec (.encode [0x01, 0x7E, 0x02, 0x9E, 0x03]) (bound small []) =
      .next { bound small [] with
        sunk := [{ frame := [0x7E, 0x01, 0x7D, 0x9E, 0x02, 0x9E, 0x03, 0x7F], length := 8 }] } := rfl
theorem test_encode_EV14 : exec (.encode [1, 2, 3, 4]) (bound small []) = .fault (.operandRefused .encode 4) := rfl
theorem test_encNosink :
    exec (.encNosink [1, 2, 3, 4, 5]) (State.resetOf small) = .next (State.resetOf small) := rfl
theorem test_decode :
    exec (.decode [0x7E, 0x7D, 0x9E, 0x01, 0x02, 0x03, 0x04, 0x7F, 0x55]) (bound small []) =
      .next { bound small [] with
        results := [{ valid := true, consumed := 8, pkt := some [0x7E, 0x01, 0x02, 0x03, 0x04] }] } := rfl
theorem test_decode_DV24 :
    exec (.decode (List.replicate 21 0)) (bound small []) = .fault (.operandRefused .decode 21) := rfl
theorem test_bindSink_CV1 : exec (.bindSink true) (State.resetOf small) = .next (bound small []) := rfl
theorem test_bindSink_race : exec (.bindSink false) (inBody [1, 2, 3, 4, 5] 1 0 false) = .fault .bindRace := rfl

/-- The encoder unit right after the byte-serial ENCODE of a packet is taken in. -/
def started (p : List Byte) : State := { bound small [.encoderTurn] with enc := { EncUnit.idle with pkt := some p } }

theorem test_encStart :
    exec .encStart (started [1, 2, 3, 4, 5]) =
      .next { started [1, 2, 3, 4, 5] with
        enc :=
          { st := .body, pkt := some [1, 2, 3, 4, 5], buf := [(0, 0x7E)], len := 1, i := 0, trunc := false } } := rfl
theorem test_encPlain :
    exec (.encPlain 0x9E) (inBody [0x9E, 2, 3, 4, 5] 1 0 false) =
      .next { inBody [0x9E, 2, 3, 4, 5] 1 0 false with
        enc :=
          { st := .body, pkt := some [0x9E, 2, 3, 4, 5], buf := [(0, 0x7E), (1, 0x9E)], len := 2, i := 1,
            trunc := false } } := rfl
theorem test_encEscapeS :
    exec .encEscapeS (inBody [0x7E, 2, 3, 4, 5] 1 0 false) =
      .next { inBody [0x7E, 2, 3, 4, 5] 1 0 false with
        enc :=
          { st := .body, pkt := some [0x7E, 2, 3, 4, 5], buf := [(0, 0x7E), (1, 0x7D), (2, 0x9E)], len := 3, i := 1,
            trunc := false } } := rfl
theorem test_encEscapeE :
    exec .encEscapeE (inBody [0x7F, 2, 3, 4, 5] 1 0 false) =
      .next { inBody [0x7F, 2, 3, 4, 5] 1 0 false with
        enc :=
          { st := .body, pkt := some [0x7F, 2, 3, 4, 5], buf := [(0, 0x7E), (1, 0x7D), (2, 0x9F)], len := 3, i := 1,
            trunc := false } } := rfl
theorem test_encEscapeX :
    exec .encEscapeX (inBody [0x7D, 2, 3, 4, 5] 1 0 false) =
      .next { inBody [0x7D, 2, 3, 4, 5] 1 0 false with
        enc :=
          { st := .body, pkt := some [0x7D, 2, 3, 4, 5], buf := [(0, 0x7E), (1, 0x7D), (2, 0x9D)], len := 3, i := 1,
            trunc := false } } := rfl
theorem test_encEscape_other : exec .encEscapeE (inBody [0x7E, 2, 3, 4, 5] 1 0 false) =
    .next (inBody [0x7E, 2, 3, 4, 5] 1 0 false) := rfl
theorem test_encDrop :
    exec .encDrop (inBody [0x7E, 2, 3, 4, 5] 10 0 false) = .next (inBody [0x7E, 2, 3, 4, 5] 10 0 true) := rfl
theorem test_encDrop_fits :
    exec .encDrop (inBody [1, 2, 3, 4, 5] 10 0 false) = .next (inBody [1, 2, 3, 4, 5] 10 0 false) := rfl
theorem test_encFinish :
    exec .encFinish (inBody [1, 2, 3, 4, 5] 3 5 false) =
      .next { bound small [.encoderTurn] with sunk := [{ frame := [0x7E, 0x11, 0x11, 0x7F], length := 4 }] } := rfl
theorem test_decScanStart :
    exec .decScanStart (parsing .scan [0x7F, 0x7E] 0 1) = .next (parsing .body [0x7F, 0x7E] 0 2) := rfl
theorem test_decScanSkip :
    exec (.decScanSkip 0x7F) (parsing .scan [0x7F, 0x7E] 0 0) = .next (parsing .scan [0x7F, 0x7E] 0 1) := rfl
theorem test_decBodyEsc :
    exec .decBodyEsc (parsing .body [0x7E, 0x7D] 0 1) = .next (parsing .escd [0x7E, 0x7D] 0 2) := rfl
theorem test_decBodyEnd_valid :
    exec .decBodyEnd (parsing .body [0, 0, 0, 0, 0, 0, 0x7F] 5 6) =
      .next { bound small [.decoderTurn] with
        results := [{ valid := true, consumed := 7, pkt := some [0x22, 0x22, 0x22, 0x22, 0x22] }] } := rfl
theorem test_decBodyEnd_short :
    exec .decBodyEnd (parsing .body [0x7E, 0x7F] 0 1) =
      .next { bound small [.decoderTurn] with results := [{ valid := false, consumed := 2, pkt := none }] } := rfl
theorem test_decBodyData :
    exec (.decBodyData 0x22) (parsing .body [0x7E, 0x22] 0 1) = .next (parsing .body [0x7E, 0x22] 1 2) := rfl
theorem test_decBodyData_full :
    exec (.decBodyData 0x7E) (parsing .body [0x7E, 0x7E] 5 1) =
      .next { parsing .body [0x7E, 0x7E] 5 2 with dec := { (parsing .body [0x7E, 0x7E] 5 2).dec with ovf := true } } := rfl
theorem test_decEscS :
    exec .decEscS (parsing .escd [0x7E, 0x7D, 0x9E] 0 2) =
      .next { parsing .body [0x7E, 0x7D, 0x9E] 1 3 with
        dec := { (parsing .body [0x7E, 0x7D, 0x9E] 1 3).dec with asm := [(0, 0x7E)] } } := rfl
theorem test_decEscE :
    exec .decEscE (parsing .escd [0x7E, 0x7D, 0x9F] 0 2) =
      .next { parsing .body [0x7E, 0x7D, 0x9F] 1 3 with
        dec := { (parsing .body [0x7E, 0x7D, 0x9F] 1 3).dec with asm := [(0, 0x7F)] } } := rfl
theorem test_decEscX :
    exec .decEscX (parsing .escd [0x7E, 0x7D, 0x9D] 0 2) =
      .next { parsing .body [0x7E, 0x7D, 0x9D] 1 3 with
        dec := { (parsing .body [0x7E, 0x7D, 0x9D] 1 3).dec with asm := [(0, 0x7D)] } } := rfl
theorem test_decEscEnd_terminate :
    exec .decEscEnd (parsing .escd [0x7E, 0x7D, 0x7F, 1] 0 2) =
      .next { bound small [.decoderTurn] with results := [{ valid := false, consumed := 3, pkt := none }] } := rfl
theorem test_decEscEnd_drain :
    exec .decEscEnd (draining (parsing .escd [0x7E, 0x7D, 0x7F, 1] 0 2)) =
      .next (draining (parsing .drain [0x7E, 0x7D, 0x7F, 1] 0 3)) := rfl
theorem test_decEscBad :
    exec (.decEscBad 0x7D) (parsing .escd [0x7E, 0x7D, 0x7D] 0 2) = .next (parsing .drain [0x7E, 0x7D, 0x7D] 0 3) := rfl
theorem test_decDrainEnd :
    exec .decDrainEnd (parsing .drain [0, 0, 0x7F, 1] 0 2) =
      .next { bound small [.decoderTurn] with results := [{ valid := false, consumed := 3, pkt := none }] } := rfl
theorem test_decDrainSkip :
    exec (.decDrainSkip 0x7E) (parsing .drain [0, 0x7E] 0 1) = .next (parsing .drain [0, 0x7E] 0 2) := rfl
theorem test_decExhaust :
    exec .decExhaust (parsing .escd [0x7E, 0x7D] 0 2) =
      .next { bound small [.decoderTurn] with results := [{ valid := false, consumed := 2, pkt := none }] } := rfl

/-! ## Words placed and run right after reset -/

theorem test_placed_nop : step (State.reset.withFetchWord 8 0) = .next { State.reset with cfg := .rc } := rfl
theorem test_placed_bindSink :
    step ((bound .rc []).withFetchWord 8 3) = .next (State.resetOf .rc) := rfl
theorem test_placed_escapeX :
    decodeTableWord 8 0x7D = some .encEscapeX ∧
      step (State.reset.withFetchWord 8 0x7D) =
        exec .encEscapeX { State.reset.withFetchWord 8 0x7D with inputs := [] } := ⟨rfl, rfl⟩
theorem test_placed_escS :
    decodeTableWord 8 0x9E = some .decEscS ∧
      step (State.reset.withFetchWord 8 0x9E) =
        exec .decEscS { State.reset.withFetchWord 8 0x9E with inputs := [] } := ⟨rfl, rfl⟩
theorem test_table_refuses : decodeTableWord 16 0x7D = none ∧ decodeTableWord 8 256 = none := ⟨rfl, rfl⟩

/-! ## Witnesses: states and operands that meet the hypotheses of each obligation, with each clause at a boundary -/

/-- The port lines of an operation. -/
def word (op : BitVec 2) (v : Bool) (data : List Byte) : PortWord := { op := op, v := v, data := data }

/-- Five plain bytes. -/
def p5 : List Byte := [1, 2, 3, 4, 5]

/-- Both units at work, at the edges of their ranges: enc_len + 1 = C, enc_i = N, idx = N, pos = L. -/
def working (inputs : List Input) : State :=
  { inBody p5 11 5 false with
    inputs := inputs
    dec := (parsing .body [0x7E, 1, 2, 3, 4, 5] 5 6).dec }

theorem idle_inv (c : Config) (b : Bool) (inputs : List Input) :
    State.Inv { State.resetOf c with sinkBound := b, inputs := inputs } :=
  ⟨⟨fun _ => rfl, (fun _ h => nomatch h), fun _ => ⟨rfl, rfl, rfl⟩, (fun h => nomatch h), rfl, (fun h => nomatch h),
    Nat.zero_le _⟩,
   ⟨fun _ => rfl, (fun _ h => nomatch h), rfl, Nat.zero_le _, (fun h => nomatch h), fun _ => ⟨rfl, rfl⟩⟩⟩

theorem working_inv (inputs : List Input) : (working inputs).Inv :=
  ⟨⟨(fun h => nomatch h), fun _ h => Option.some.inj h ▸ ⟨rfl, rfl⟩, (fun h => nomatch h), (fun h => nomatch h), rfl,
    fun _ => ⟨show 1 ≤ 11 by decide, show 11 + 1 ≤ 12 by decide⟩, Nat.le_refl 5⟩,
   ⟨(fun h => nomatch h), fun _ h => Option.some.inj h ▸ ⟨rfl, Nat.le_refl 6⟩, rfl, Nat.le_refl 5, (fun h => nomatch h),
    (fun h => nomatch h)⟩⟩

theorem small_admitted : small.Admitted := by decide

theorem witness_ResetAbandonsWhatIsInProgress :
    (working [.reset]).cfg.Admitted ∧ (working [.reset]).inputs = .reset :: [] := ⟨small_admitted, rfl⟩

theorem witness_OnlyAdmittedConfigurationsStep :
    (State.resetOf small).cfg.K1 ∧ (State.resetOf small).cfg.K2 ∧ (State.resetOf small).cfg.K3 ∧
    (State.resetOf { small with frameCap := 2 }).cfg.K4 ∧ ¬ { small with endByte := 0x7D }.K1 ∧
    ¬ { small with escOffset := 0 }.K2 ∧ ¬ { small with escOffset := 1 }.K3 ∧ ¬ { small with frameCap := 1 }.K4 := by
  decide

theorem witness_ParametersAreNeverWritten : step (bound small []) = .next (bound small []) := rfl

theorem witness_OnlyBindSinkAndResetWriteSinkBound :
    (step (bound small [.request (word 3 false [])]) = .next (State.resetOf small) ∧
      (State.resetOf small).sinkBound ≠ (bound small [.request (word 3 false [])]).sinkBound) ∧
    (step (bound small [.reset]) = .next (State.resetOf small) ∧
      (State.resetOf small).sinkBound ≠ (bound small [.reset]).sinkBound) := ⟨⟨rfl, by decide⟩, rfl, by decide⟩

theorem witness_EveryStepKeepsTheInvariant :
    (working [.encoderTurn]).Inv ∧ ∃ t, step (working [.encoderTurn]) = .next t ∧ t.sunk ≠ [] :=
  ⟨working_inv _, _, rfl, by decide⟩

theorem witness_WorkingBufferWritesStayInBounds :
    (working []).Inv ∧ (working []).enc.buf.read 10 = some 0x11 ∧ (working []).dec.asm.read 4 = some 0x22 :=
  ⟨working_inv _, rfl, rfl⟩

theorem witness_DecodeOfEncodeIsTheInstruction :
    small.Admitted ∧ (Instr.encPlain 0x9E).wf small = true ∧ (Instr.decEscBad 0x7E).wf small = true ∧
    (Instr.decode (List.replicate 20 0x7E)).wf small = true ∧ (Instr.encode p5).wf small = true := by decide

theorem witness_DecodedBytesAreOfTheirRowsClass :
    small.Admitted ∧ decode small (.decoderByte .escd 0x7E) = .ok (.decEscBad 0x7E) ∧
    (∀ pkt, Instr.decEscBad 0x7E ≠ .encode pkt ∧ Instr.decEscBad 0x7E ≠ .encNosink pkt) ∧
    (∀ buf, Instr.decEscBad 0x7E ≠ .decode buf) ∧
    decode small (.port true (word 1 false [1, 2, 3, 4])) = .ok (.encode [1, 2, 3, 4]) ∧
    decode small (.port true (word 2 false (List.replicate 21 0))) = .ok (.decode (List.replicate 21 0)) :=
  ⟨small_admitted, rfl, fun _ => ⟨(fun h => nomatch h), (fun h => nomatch h)⟩, (fun _ h => nomatch h), rfl, rfl⟩

theorem witness_DecoderTransitionMapIsTheTable : Config.rc.Admitted := by decide

theorem witness_EncoderClassesSelectUnits :
    Config.rc.Admitted ∧ (0x9E : Byte) = Config.rc.startByte + Config.rc.escOffset := by decide

theorem witness_StepRunsTheDecodedInstruction :
    (∀ w : PortWord, w = word 1 false p5 →
      (bound small [.request w]).cfg.Admitted ∧
      ¬ (w.op = 1 ∧ ((bound small [.request w]).enc.pkt ≠ none ∨ (bound small [.request w]).enc.st ≠ .idle)) ∧
      ¬ (w.op = 2 ∧ (bound small [.request w]).dec.buf ≠ none) ∧
      decode small (.port (bound small [.request w]).sinkBound w) = .ok (.encode p5)) ∧
    (decode small (.port (working []).sinkBound (word 0 true p5)) = .ok .nop ∧
      decode small (.port (working []).sinkBound (word 3 false [])) = .ok (.bindSink false) ∧
      decode small (.port (State.resetOf small).sinkBound (word 1 false p5)) = .ok (.encNosink p5) ∧
      (State.resetOf small).sinkBound = false ∧ (State.resetOf small).enc.pkt = none ∧
      (State.resetOf small).enc.st = .idle) ∧
    decode small (encoderPresent small (inBody [0x7D, 2, 3, 4, 5] 1 0 false).enc) = .ok .encEscapeX ∧
    decode small (decoderPresent (parsing .escd [0x7E, 0x7D, 0x9E] 0 2).dec) = .ok .decEscS := by
  refine ⟨?_, ⟨rfl, rfl, rfl, rfl, rfl, rfl⟩, rfl, rfl⟩
  rintro w rfl
  exact ⟨small_admitted, by decide, by decide, rfl⟩

theorem witness_OperationsOfAUnitAreOneAtATime :
    (working [.request (word 1 false p5)]).cfg.Admitted ∧ (working [.request (word 1 false p5)]).enc.pkt ≠ none ∧
    (working [.serial (word 2 false [])]).dec.buf ≠ none ∧
    decode small (encoderPresent small (working []).enc) = .ok .encFinish ∧
    decode small (decoderPresent (working []).dec) = .ok .decExhaust :=
  ⟨small_admitted, by decide, by decide, rfl, rfl⟩

theorem witness_TheTableWordPlacedIsTheOneRun :
    decodeTableWord 8 3 = some (.bindSink false) ∧ decodeTableWord 8 4 = some (.encPlain 4) ∧
    decodeTableWord 8 255 = some (.encPlain 255) := by decide

theorem witness_SerialOperationsBegin :
    (bound small []).cfg.Admitted ∧ (bound small []).enc = EncUnit.idle ∧ (bound small []).dec = DecUnit.idle ∧
    (bound small []).sinkBound = true ∧ p5.length = small.packetSize ∧ [1, 2, 3, 4].length ≠ small.packetSize ∧
    (∀ m, small.maxBuf = some m → (List.replicate 20 (0 : Byte)).length ≤ m) ∧
    (small.maxBuf = some 20 ∧ 20 < (List.replicate 21 (0 : Byte)).length) :=
  ⟨small_admitted, rfl, rfl, rfl, rfl, by decide, fun _ h => Option.some.inj h ▸ Nat.le_refl 20, rfl, by decide⟩

theorem witness_NopChangesNothing :
    (bound small []).cfg.Admitted ∧ (bound small []).inputs = [] ∧ (bound small []).enc.pkt = none ∧
    (bound small []).enc.st = .idle ∧ (bound small []).dec.buf = none := by decide

theorem witness_BindSinkWritesSinkBound :
    ((bound small []).enc.pkt = none ∧ (bound small []).enc.st = .idle ∧ (bound small []).sinkBound = true) ∧
    (working []).enc.st ≠ .idle := by decide

theorem witness_EncodeHandsOneFrameToTheSink :
    [1, 2, 3, 4].length ≠ small.packetSize ∧ p5.length = small.packetSize ∧
    (State.resetOf small).sinkBound = false ∧ (bound small []).sinkBound = true := by decide

theorem witness_EncodeWithoutSinkDoesNothing :
    (State.resetOf small).sinkBound = false ∧ p5.length = (State.resetOf small).cfg.packetSize ∧
    ([] : List Byte).length ≠ (State.resetOf small).cfg.packetSize := by decide

theorem witness_DecodeReturnsOneResult :
    (small.maxBuf = some 20 ∧ 20 < (List.replicate 21 (0 : Byte)).length) ∧
    (∀ m, small.maxBuf = some m → (List.replicate 20 (0 : Byte)).length ≤ m) :=
  ⟨⟨rfl, by decide⟩, fun _ h => Option.some.inj h ▸ Nat.le_refl 20⟩

theorem witness_EncodeFrameKeepsTheGreatestPrefixThatFits : rcT.Admitted ∧ 1 + (p12.take 8).length + 1 ≤ rcT.frameCap := by
  decide

theorem witness_FramesAreNeitherShortNorLong :
    small.Admitted ∧ p5.length = small.packetSize ∧
    encodeFrame small p5 = [small.startByte] ++ p5.flatMap small.unit ++ [small.endByte] := by decide

/-- N = 5 is a packet size, and 4 is none (R9). -/
theorem test_packetSize_least : small.packetSize = 5 ∧ ∀ c : Config, c.packetSize ≠ 4 :=
  ⟨rfl, fun c h => absurd (h ▸ c.packetSize_ge_five) (by decide)⟩

theorem witness_DefaultCapacityNeverTruncates :
    2 * small.packetSize + 2 = small.frameCap ∧ p5.length = small.packetSize := by decide

theorem witness_FrameBodiesAreStuffed :
    small.Admitted ∧ encodeFrame small [0x7E, 1, 2, 3, 4] = [0x7E] ++ [0x7D, 0x9E, 1, 2, 3, 4] ++ [0x7F] ∧
    [(0x7D : Byte), 0x9E, 1, 2, 3, 4][0]? = some small.escByte := by decide

theorem witness_EncStartWritesTheStartMarker :
    (started p5).enc.st = .idle ∧ (started p5).enc.pkt = some p5 ∧ 1 ≤ (started p5).cfg.frameCap := by decide

theorem witness_EncPlainCopiesThePacketByte :
    (inBody p5 10 4 false).EncoderAt p5 5 ∧ (inBody p5 10 4 false).enc.len + 2 = small.frameCap ∧
    (inBody p5 11 4 false).EncoderAt p5 5 ∧ small.frameCap < (inBody p5 11 4 false).enc.len + 2 ∧
    (inBody [0x7D, 2, 3, 4, 5] 1 0 false).EncoderAt [0x7D, 2, 3, 4, 5] small.escByte :=
  ⟨⟨rfl, rfl, rfl, by decide, rfl⟩, rfl, ⟨rfl, rfl, rfl, by decide, rfl⟩, by decide, rfl, rfl, rfl, by decide, rfl⟩

theorem witness_EncEscapeWritesThePair :
    (inBody [1, 2, 3, 4, 0x7F] 9 4 false).EncoderAt [1, 2, 3, 4, 0x7F] small.endByte ∧
    (inBody [1, 2, 3, 4, 0x7F] 9 4 false).enc.len + 3 = small.frameCap ∧
    (inBody [1, 2, 3, 4, 0x7F] 10 4 false).EncoderAt [1, 2, 3, 4, 0x7F] small.endByte ∧
    small.frameCap < (inBody [1, 2, 3, 4, 0x7F] 10 4 false).enc.len + 3 :=
  ⟨⟨rfl, rfl, rfl, by decide, rfl⟩, rfl, ⟨rfl, rfl, rfl, by decide, rfl⟩, by decide⟩

theorem witness_EncDropTruncates :
    (inBody p5 11 4 false).EncoderAt p5 5 ∧ small.frameCap + 1 = (inBody p5 11 4 false).enc.len + (small.unit 5).length + 1 ∧
    (inBody p5 10 4 false).EncoderAt p5 5 ∧ (inBody p5 10 4 false).enc.len + (small.unit 5).length + 1 = small.frameCap :=
  ⟨⟨rfl, rfl, rfl, by decide, rfl⟩, by decide, ⟨rfl, rfl, rfl, by decide, rfl⟩, by decide⟩

theorem witness_EncFinishEmitsTheBalancedFrame :
    ((inBody p5 11 5 false).enc.st = .body ∧ (inBody p5 11 5 false).enc.i = small.packetSize ∧
      (inBody p5 11 5 false).enc.len < small.frameCap ∧ (inBody p5 11 5 false).enc.buf.read 10 = some 0x11) ∧
    ((inBody p5 1 0 true).enc.st = .body ∧ (inBody p5 1 0 true).enc.trunc = true ∧
      encoderPresent small (inBody p5 1 0 true).enc = .encoderFinish) ∧
    ((inBody p5 1 4 false).enc.st = .body ∧ encoderPresent small (inBody p5 1 4 false).enc ≠ .encoderFinish) := by decide

theorem witness_EncoderTurnIsOnePassOfTheLoop :
    (inBody p5 10 4 false).cfg.Admitted ∧ (inBody p5 10 4 false).EncoderAt p5 5 ∧
    (inBody p5 10 4 false).inputs = [.encoderTurn] ∧
    (inBody p5 10 4 false).enc.len + (small.unit 5).length + 1 = small.frameCap ∧
    (inBody p5 11 4 false).EncoderAt p5 5 ∧ small.frameCap < (inBody p5 11 4 false).enc.len + (small.unit 5).length + 1 :=
  ⟨small_admitted, ⟨rfl, rfl, rfl, by decide, rfl⟩, rfl, by decide, ⟨rfl, rfl, rfl, by decide, rfl⟩, by decide⟩

theorem witness_ByteSerialEncodeIsEncode :
    (bound small [.serial (word 1 false p5)]).cfg.Admitted ∧ (bound small [.serial (word 1 false p5)]).Inv ∧
    (bound small [.serial (word 1 false p5)]).enc.pkt = none ∧
    (bound small [.serial (word 1 false p5)]).sinkBound = true ∧ p5.length = small.packetSize :=
  ⟨small_admitted, idle_inv _ _ _, rfl, rfl, rfl⟩

theorem witness_DecScanStartEntersBody :
    (parsing .scan [0x7E] 0 0).DecoderAt .scan [0x7E] small.startByte ∧ DecState.body ≠ .scan :=
  ⟨⟨rfl, rfl, rfl⟩, by decide⟩

theorem witness_DecScanSkipDiscards :
    (parsing .scan [0x7F] 0 0).DecoderAt .scan [0x7F] 0x7F ∧ (0x7F : Byte) ≠ small.startByte :=
  ⟨⟨rfl, rfl, rfl⟩, by decide⟩

theorem witness_DecBodyEscEntersEscaped :
    (parsing .body [0x7E, 0x7D] 0 1).DecoderAt .body [0x7E, 0x7D] small.escByte ∧
    (parsing .body [0x7E, 0x7D] 0 1).dec.pos + 1 = [(0x7E : Byte), 0x7D].length := ⟨⟨rfl, rfl, rfl⟩, rfl⟩

theorem witness_DecBodyEndReturnsTheLengthCheck :
    ((parsing .body [0x7E, 0x7F] 5 1).DecoderAt .body [0x7E, 0x7F] small.endByte ∧
      (parsing .body [0x7E, 0x7F] 5 1).dec.ovf = false ∧ (parsing .body [0x7E, 0x7F] 5 1).dec.idx = small.packetSize ∧
      (parsing .body [0x7E, 0x7F] 5 1).dec.asm.read 4 = some 0x22) ∧
    ((parsing .body [0x7E, 0x7F] 4 1).DecoderAt .body [0x7E, 0x7F] small.endByte ∧
      (parsing .body [0x7E, 0x7F] 4 1).dec.idx ≠ small.packetSize) :=
  ⟨⟨⟨rfl, rfl, rfl⟩, rfl, rfl, rfl⟩, ⟨rfl, rfl, rfl⟩, by decide⟩

theorem witness_DecBodyDataStoresVerbatim :
    (parsing .body [0x7E, 0x7E] 4 1).DecoderAt .body [0x7E, 0x7E] 0x7E ∧ (0x7E : Byte) ≠ small.escByte ∧
    (0x7E : Byte) ≠ small.endByte ∧ (parsing .body [0x7E, 0x7E] 4 1).dec.idx < small.packetSize ∧
    (parsing .body [0x7E, 0x7E] 5 1).DecoderAt .body [0x7E, 0x7E] 0x7E ∧
    small.packetSize ≤ (parsing .body [0x7E, 0x7E] 5 1).dec.idx :=
  ⟨⟨rfl, rfl, rfl⟩, by decide, by decide, by decide, ⟨rfl, rfl, rfl⟩, by decide⟩

theorem witness_DecEscUnescapesAndStores :
    (parsing .escd [0x7E, 0x7D, 0x9D] 4 2).DecoderAt .escd [0x7E, 0x7D, 0x9D] (small.escByte + small.escOffset) ∧
    (parsing .escd [0x7E, 0x7D, 0x9D] 4 2).dec.idx < small.packetSize ∧
    (parsing .escd [0x7E, 0x7D, 0x9E] 5 2).DecoderAt .escd [0x7E, 0x7D, 0x9E] (small.startByte + small.escOffset) ∧
    small.packetSize ≤ (parsing .escd [0x7E, 0x7D, 0x9E] 5 2).dec.idx :=
  ⟨⟨rfl, rfl, rfl⟩, by decide, ⟨rfl, rfl, rfl⟩, by decide⟩

theorem witness_DecEscEndFollowsThePolicy :
    ((parsing .escd [0x7E, 0x7D, 0x7F] 0 2).DecoderAt .escd [0x7E, 0x7D, 0x7F] small.endByte ∧
      (parsing .escd [0x7E, 0x7D, 0x7F] 0 2).cfg.escEndPolicy = .terminate) ∧
    ((draining (parsing .escd [0x7E, 0x7D, 0x7F] 0 2)).DecoderAt .escd [0x7E, 0x7D, 0x7F] small.endByte ∧
      (draining (parsing .escd [0x7E, 0x7D, 0x7F] 0 2)).cfg.escEndPolicy = .drain) :=
  ⟨⟨⟨rfl, rfl, rfl⟩, rfl⟩, ⟨rfl, rfl, rfl⟩, rfl⟩

theorem witness_DecEscBadStartsTheDrain :
    (parsing .escd [0x7E, 0x7D, 0x7E] 0 2).DecoderAt .escd [0x7E, 0x7D, 0x7E] 0x7E ∧
    (0x7E : Byte) ∉ small.escaped ∧ (0x7E : Byte) ≠ small.endByte := ⟨⟨rfl, rfl, rfl⟩, by decide, by decide⟩

theorem witness_DecDrainEndReturnsInvalid :
    (parsing .drain [0, 0x7F] 0 1).DecoderAt .drain [0, 0x7F] small.endByte := ⟨rfl, rfl, rfl⟩

theorem witness_DecDrainSkipConsumes :
    (parsing .drain [0, 0x7E] 0 1).DecoderAt .drain [0, 0x7E] 0x7E ∧ (0x7E : Byte) ≠ small.endByte :=
  ⟨⟨rfl, rfl, rfl⟩, by decide⟩

theorem witness_DecExhaustReturnsInvalid :
    ((parsing .escd [0x7E, 0x7D] 0 2).dec.buf = some [0x7E, 0x7D] ∧ (parsing .escd [0x7E, 0x7D] 0 2).dec.pos = 2) ∧
    ((parsing .scan [] 0 0).dec.buf = some [] ∧ (parsing .scan [] 0 0).dec.pos = 0) := by decide

theorem witness_StepsThatAreNotSelectedDoNothing :
    ((bound small []).dec.buf = none ∧ (bound small []).enc.pkt = none ∧ (bound small []).enc.st = .idle) ∧
    (Instr.decEscS.isDecoderRow = true ∧ Instr.encDrop.isEncoderRow = true) ∧
    ((parsing .escd [0x7E, 0x7D, 0x9E] 0 2).DecoderAt .escd [0x7E, 0x7D, 0x9E] 0x9E ∧
      0x9E ≠ small.endByte + small.escOffset ∧ 0x9E ≠ small.endByte ∧
      0x9E ∈ [small.startByte + small.escOffset, small.endByte + small.escOffset, small.escByte + small.escOffset]) ∧
    (parsing .scan [0x7E] 0 0).DecoderAt .scan [0x7E] small.startByte ∧
    ((parsing .escd [0x7E, 0x7D] 0 2).dec.buf = some [0x7E, 0x7D] ∧ (parsing .escd [0x7E, 0x7D] 0 2).dec.pos = 2) ∧
    ((inBody [0x7E, 2, 3, 4, 5] 1 0 false).EncoderAt [0x7E, 2, 3, 4, 5] 0x7E ∧ 0x7E ≠ small.endByte) ∧
    (inBody p5 1 4 false).enc.st ≠ .idle ∧
    ((inBody p5 1 4 false).enc.i ≠ small.packetSize ∧ (inBody p5 1 4 false).enc.trunc = false) ∧
    (inBody p5 1 0 true).enc.trunc = true ∧ small.packetSize ≤ (inBody p5 11 5 false).enc.i :=
  ⟨by decide, by decide, ⟨⟨rfl, rfl, rfl⟩, by decide, by decide, by decide⟩, ⟨rfl, rfl, rfl⟩, by decide,
    ⟨⟨rfl, rfl, rfl, by decide, rfl⟩, by decide⟩, by decide, by decide, by decide, by decide⟩

theorem witness_ByteSerialDecodeIsDecode :
    (bound small [.serial (word 2 false (List.replicate 20 0x7E))]).cfg.Admitted ∧
    (bound small [.serial (word 2 false (List.replicate 20 0x7E))]).Inv ∧
    (bound small [.serial (word 2 false (List.replicate 20 0x7E))]).enc.pkt = none ∧
    (bound small [.serial (word 2 false (List.replicate 20 0x7E))]).dec.buf = none ∧
    (∀ m, small.maxBuf = some m → (List.replicate 20 (0x7E : Byte)).length ≤ m) :=
  ⟨small_admitted, idle_inv _ _ _, rfl, rfl, fun _ h => Option.some.inj h ▸ Nat.le_refl 20⟩

theorem witness_ResultTriplesAreWellFormed :
    (decodeFrame small ([0x7E] ++ p5 ++ [0x7F])).valid = true ∧ (decodeFrame small [0x7E]).valid = false ∧
    small.maxBuf = some 20 ∧ 20 < 2 ^ 5 ∧ (List.replicate 20 (0 : Byte)).length ≤ 20 := by decide

theorem witness_DecodeMakesProgress : [(0 : Byte)] ≠ [] ∧ ([] : List Byte) = [] := by decide

theorem witness_BytesAfterTheEndAreNotInspected :
    (decodeFrame small ([0x7E] ++ p5 ++ [0x7F])).valid = true ∧
    (decodeFrame small [0x7E, 0x7F, 0x55]).consumed < [(0x7E : Byte), 0x7F, 0x55].length := by decide

theorem witness_DecodeOfAnEncodedPacketIsThePacket :
    small.Admitted ∧ 2 * small.packetSize + 2 ≤ small.frameCap ∧ [0x7E, 0x7F, 0x7D, 0x9E, 1].length = small.packetSize ∧
    small.startByte ∉ [0x7F, 0x7D, 0x9E] := by decide

theorem witness_TruncatedFramesDoNotDecode :
    rcT.Admitted ∧ p12.length = rcT.packetSize ∧
    encodeFrame rcT p12 ≠ [rcT.startByte] ++ p12.flatMap rcT.unit ++ [rcT.endByte] := by decide

/-- L3-P2 of 95_test_vectors.md in small: the pass from 0 fails, the pass from 4 finds the frame. -/
theorem witness_ResynchronisationReturnsTheFrameExactlyUnderItsCondition :
    small.Admitted ∧ 2 * small.packetSize + 2 ≤ small.frameCap ∧ p5.length = small.packetSize ∧
    PassAt small ([0x7E, 0x7D, 0x41, 0x7F] ++ encodeFrame small p5 ++ [0x55]) 4 ∧
    small.startByte ∉ [0x7E, 0x7D, 0x41, 0x7F].drop 4 :=
  ⟨small_admitted, by decide, rfl, PassAt.next 0 .first rfl (by decide), by decide⟩

theorem witness_DrainsAndMergesSwallowTheNextFrame :
    small.Admitted ∧ 2 * small.packetSize + 2 ≤ small.frameCap ∧ p5.length = small.packetSize ∧
    (∀ b ∈ [(0x01 : Byte)], b ∉ small.reserved) ∧ (0x7E : Byte) ∉ small.escaped ∧ (0x7E : Byte) ≠ small.endByte := by
  decide

theorem witness_EncoderAndDecoderRowsCommute :
    Instr.encFinish.isEncoderRow = true ∧ Instr.decExhaust.isDecoderRow = true ∧
    (∃ t u, exec .encFinish (working []) = .next t ∧ exec .decExhaust t = .next u ∧ u.sunk ≠ [] ∧ u.results ≠ []) ∧
    (∃ t u, exec .decExhaust (working []) = .next t ∧ exec .encFinish t = .next u ∧ u.sunk ≠ [] ∧ u.results ≠ []) :=
  ⟨rfl, rfl, ⟨_, _, rfl, rfl, by decide, by decide⟩, _, _, rfl, rfl, by decide, by decide⟩

theorem witness_UnitsKeepTheOthersState :
    (∃ t, exec .encFinish (working []) = .next t) ∧ (∃ t, exec .decExhaust (working []) = .next t) :=
  ⟨⟨_, rfl⟩, _, rfl⟩

theorem witness_AtMostOneEventPerStep :
    (∃ t, step (working [.encoderTurn]) = .next t ∧ t.sunk ≠ []) ∧
    (∃ t, step (working [.decoderTurn]) = .next t ∧ t.results ≠ []) :=
  ⟨⟨_, rfl, by decide⟩, _, rfl, by decide⟩

theorem witness_OnlyTheNamedConditionsFault :
    (working [.serial (word 3 true [])]).cfg.Admitted ∧ (working [.serial (word 3 true [])]).Inv ∧
    step (working [.serial (word 3 true [])]) = .fault .bindRace ∧ step (working [.changeBuf]) = .fault .bufferRace ∧
    step (bound small [.shareDest]) = .fault .bufferRace ∧
    step (bound small [.request (word 1 false [1, 2, 3, 4])]) = .fault (.operandRefused .encode 4) ∧
    step (bound small [.serial (word 2 false (List.replicate 21 0))]) = .fault (.operandRefused .decode 21) :=
  ⟨small_admitted, working_inv _, rfl, rfl, rfl, rfl, rfl⟩

theorem witness_HazardsOfTheHostAreFaults :
    ((working [.request (word 3 true [])]).cfg.Admitted ∧ (working [.request (word 3 true [])]).enc.st ≠ .idle) ∧
    (started p5).enc.pkt ≠ none ∧ (working [.changeBuf]).dec.buf ≠ none ∧ (bound small [.changeBuf]).dec.buf = none ∧
    (bound small [.shareDest]).inputs = [.shareDest] := by decide

theorem witness_MemoryStepsWriteOnlyTheirBytes :
    (∃ t, exec .encStart (started p5) = .next t ∧ t.enc.pkt = (started p5).enc.pkt) ∧
    (∃ t, exec (.encPlain 5) (inBody p5 10 4 false) = .next t ∧ t.enc.pkt = (inBody p5 10 4 false).enc.pkt) ∧
    (∃ t, exec (.decBodyData 0x7E) (parsing .body [0x7E, 0x7E] 4 1) = .next t ∧
      t.dec.buf = (parsing .body [0x7E, 0x7E] 4 1).dec.buf) ∧
    (started p5).enc.pkt ≠ none ∧ (inBody p5 10 4 false).enc.pkt ≠ none ∧
    (parsing .body [0x7E, 0x7E] 4 1).dec.buf ≠ none :=
  ⟨⟨_, rfl, rfl⟩, ⟨_, rfl, rfl⟩, ⟨_, rfl, rfl⟩, by decide, by decide, by decide⟩

end Sys2Proof.Tests
end

section
/-! PROOF. Admission: what `Config.broken` records, and that no turn of an admitted machine is Fault 1 (00_scope.md R8). -/

namespace Sys2Proof

/-- The constraint `broken` records is one that does not hold. -/
theorem Config.broken_eq_some {c : Config} {k : Constraint} (h : c.broken = some k) :
    (¬ c.K1 ∧ k = .k1) ∨ (¬ c.K2 ∧ k = .k2) ∨ (¬ c.K3 ∧ k = .k3) ∨ (¬ c.K4 ∧ k = .k4) := by
  unfold Config.broken at h
  split at h
  · exact .inl ⟨‹_›, (Option.some.inj h).symm⟩
  · split at h
    · exact .inr (.inl ⟨‹_›, (Option.some.inj h).symm⟩)
    · split at h
      · exact .inr (.inr (.inl ⟨‹_›, (Option.some.inj h).symm⟩))
      · split at h
        · exact .inr (.inr (.inr ⟨‹_›, (Option.some.inj h).symm⟩))
        · cases h

/-- K3 with the escaped and the reserved set written out (R14). -/
theorem Config.k3_iff (c : Config) :
    c.K3 ↔ ∀ q ∈ [c.startByte + c.escOffset, c.endByte + c.escOffset, c.escByte + c.escOffset],
      q ≠ c.startByte ∧ q ≠ c.endByte ∧ q ≠ c.escByte := by
  refine forall₂_congr fun q _ => ?_
  rw [Config.mem_reserved, not_or, not_or]

end Sys2Proof

namespace Sys2Proof.Machine

/-- A turn never faults with Fault 1: only `step` raises it. -/
theorem perform_ne_configRefused (a : Input) (s : State) (k : Constraint) :
    perform a s ≠ .fault (.configRefused k) :=
  fun h => nomatch perform_fault h

/-- Settles O3: an admitted machine takes its turn, and no turn is Fault 1; otherwise the step faults with what `broken`
records, which is a constraint that does not hold. -/
theorem onlyAdmittedConfigurationsStep : Obligations.OnlyAdmittedConfigurationsStep := by
  intro s
  simp only [← Config.k3_iff]
  refine ⟨fun hadm k => ?_, fun hbad => ?_⟩
  · rw [step_admitted s hadm]
    exact perform_ne_configRefused _ _ k
  · obtain ⟨k, hk, hstep⟩ := step_notAdmitted s hbad
    obtain ⟨h, rfl⟩ | ⟨h, rfl⟩ | ⟨h, rfl⟩ | ⟨h, rfl⟩ := Config.broken_eq_some hk
    · exact .inl ⟨h, hstep⟩
    · exact .inr (.inl ⟨h, hstep⟩)
    · exact .inr (.inr (.inl ⟨h, hstep⟩))
    · exact .inr (.inr (.inr ⟨h, hstep⟩))

end Sys2Proof.Machine
end

section
/-! PROOF. The invariant of 10_state.md R22, R25 and R26 with the bounds of 20_memory.md R42 and R43: it holds of a unit at rest, and
every move of a unit, every operation and every turn keeps it. -/

namespace Sys2Proof.Machine

theorem EncUnit.idle_inv (c : Config) (bound : Bool) : EncUnit.idle.Inv c bound where
  atRest _ := rfl
  accepted _ h := nomatch h
  waiting _ := ⟨rfl, rfl, rfl⟩
  notDone h := nomatch h
  written := rfl
  room h := nomatch h
  index := Nat.zero_le _

theorem DecUnit.idle_inv (c : Config) : DecUnit.idle.Inv c where
  atRest _ := rfl
  accepted _ h := nomatch h
  written := rfl
  index := Nat.zero_le _
  overflow h := nomatch h
  scanning _ := ⟨rfl, rfl⟩

/-- A unit that sees a packet byte holds an operand and has not come to its end. -/
theorem EncUnit.sees_pkt {c : Config} {u : EncUnit} {b : Byte} (h : u.sees c b) :
    u.pkt ≠ none ∧ u.i < c.packetSize := by
  obtain ⟨hi, p, hp, -⟩ := (u.cur_eq c b).mp h.2.2
  exact ⟨(fun hn => nomatch hp.symm.trans hn), hi⟩

/-- A byte-level encoder step keeps the encoder's invariant. ENC_START needs K4, for the room of the end marker. -/
theorem EncMove.keeps_inv {s t : State} (h : EncMove s t) (hc : s.cfg.K4) (hs : s.enc.Inv s.cfg s.sinkBound) :
    t.enc.Inv s.cfg s.sinkBound := by
  cases h with
  | rest => exact hs
  | start hst hp _ =>
    have hw : s.enc.buf.map Prod.fst = List.range 0 := (hs.waiting hst).1 ▸ hs.written
    exact {
      atRest := fun hn => absurd hn hp
      accepted := hs.accepted
      waiting := fun h => nomatch h
      notDone := fun h => nomatch h
      written := Memory.write_next _ 0 _ hw
      room := fun _ => ⟨Nat.le_refl 1, hc⟩
      index := Nat.zero_le _ }
  | append b hb hf m hm =>
    obtain ⟨hp, hi⟩ := EncUnit.sees_pkt hb
    exact {
      atRest := fun hn => absurd hn hp
      accepted := hs.accepted
      waiting := fun h => nomatch hb.1.symm.trans h
      notDone := hs.notDone
      written := hm.written hs.written
      room := fun h => ⟨Nat.le_add_right_of_le (hs.room h).1, hf⟩
      index := hi }
  | drop b hb _ =>
    exact {
      atRest := fun hn => absurd hn (EncUnit.sees_pkt hb).1
      accepted := hs.accepted
      waiting := fun h => nomatch hb.1.symm.trans h
      notDone := hs.notDone
      written := hs.written
      room := hs.room
      index := hs.index }
  | done => exact EncUnit.idle_inv _ _

/-- The part of the decoder's invariant that speaks of what is stored: the bounded store keeps it (R145). -/
theorem DecUnit.store_inv {c : Config} {u : DecUnit} (v : Byte) (hu : u.Inv c) :
    (u.store c v).asm.map Prod.fst = List.range (u.store c v).idx ∧ (u.store c v).idx ≤ c.packetSize ∧
    ((u.store c v).ovf = true → (u.store c v).idx = c.packetSize) := by
  by_cases h : u.idx < c.packetSize
  · rw [u.store_room c v h]
    exact ⟨Memory.write_next _ _ _ hu.written, h, fun ho => absurd (hu.overflow ho) (Nat.ne_of_lt h)⟩
  · rw [u.store_full c v (Nat.le_of_not_lt h)]
    exact ⟨hu.written, hu.index, fun _ => Nat.le_antisymm hu.index (Nat.le_of_not_lt h)⟩

/-- A byte counted within the operand, in a state that is SCAN only if it was, keeps the decoder's invariant. -/
theorem DecUnit.counted_inv {c : Config} {u : DecUnit} {buf : List Byte} {st : DecState} (hb : u.buf = some buf)
    (hp : u.pos < buf.length) (hst : st = .scan → u.st = .scan) (hu : u.Inv c) :
    DecUnit.Inv c { u.counted with st := st } where
  atRest hn := nomatch hb.symm.trans hn
  accepted b h := by
    obtain rfl : buf = b := Option.some.inj (hb.symm.trans h)
    exact ⟨(hu.accepted buf hb).1, hp⟩
  written := hu.written
  index := hu.index
  overflow := hu.overflow
  scanning h := hu.scanning (hst h)

/-- A byte-level decoder step keeps the decoder's invariant. -/
theorem DecMove.keeps_inv {s t : State} (h : DecMove s t) (hs : s.dec.Inv s.cfg) : t.dec.Inv s.cfg := by
  cases h with
  | rest => exact hs
  | count buf hb hp st hst => exact DecUnit.counted_inv hb hp hst hs
  | store buf hb hp v =>
    have hcnt : s.dec.counted.Inv s.cfg := DecUnit.counted_inv hb hp id hs
    obtain ⟨-, hbuf, hpos⟩ := s.dec.counted.store_fields s.cfg v
    obtain ⟨hw, hi, ho⟩ := DecUnit.store_inv v hcnt
    exact {
      atRest := fun hn => nomatch hb.symm.trans (hbuf.symm.trans hn)
      accepted := fun b h => hpos ▸ hcnt.accepted b (hbuf.symm.trans h)
      written := hw
      index := hi
      overflow := ho
      scanning := fun h => nomatch h }
  | done => exact DecUnit.idle_inv _

/-- An operation performed at once keeps the invariant: BIND_SINK is performed only while no ENCODE is in progress (R204). -/
theorem PortDone.keeps_inv {s t : State} (h : PortDone s t) (hs : s.Inv) : t.Inv := by
  cases h with
  | same => exact hs
  | emit f => exact ⟨hs.enc, hs.dec⟩
  | give r => exact ⟨hs.enc, hs.dec⟩
  | bind v hb =>
    have hrest : s.enc.pkt = none :=
      Decidable.not_not.mp fun hp => Bool.false_ne_true (hb.symm.trans (s.enc.busy_iff.mpr (.inl hp)))
    refine ⟨?_, hs.dec⟩
    rw [show ({ s with sinkBound := v } : State).enc = EncUnit.idle from hs.enc.atRest hrest]
    exact EncUnit.idle_inv _ _

/-- The unit that has just taken in an ENCODE (R100). -/
theorem EncUnit.accepted_inv {c : Config} {pkt : List Byte} (hl : pkt.length = c.packetSize) :
    EncUnit.Inv c true { EncUnit.idle with pkt := some pkt } :=
  { EncUnit.idle_inv c true with
    atRest := fun h => nomatch h
    accepted := fun _ h => Option.some.inj h ▸ ⟨hl, rfl⟩ }

/-- The unit that has just taken in a DECODE (R132). -/
theorem DecUnit.accepted_inv {c : Config} {buf : List Byte} (hf : c.bufFits buf.length = true) :
    DecUnit.Inv c { st := .scan, buf := some buf, asm := [], idx := 0, ovf := false, pos := 0 } :=
  { DecUnit.idle_inv c with
    atRest := fun h => nomatch h
    accepted := fun _ h => Option.some.inj h ▸ ⟨hf, Nat.zero_le _⟩ }

/-- Every turn of an admitted machine keeps the invariant. -/
theorem Performed.keeps_inv {s t : State} {a : Input} (h : Performed s a t) (hc : s.cfg.K4) (hs : s.Inv) : t.Inv := by
  cases h with
  | port _ w _ _ ht _ => exact ht.keeps_inv hs
  | beginEncode w _ hb hl => exact ⟨hb ▸ EncUnit.accepted_inv hl, hs.dec⟩
  | beginDecode w _ hf => exact ⟨hs.enc, DecUnit.accepted_inv hf⟩
  | encoder _ hm =>
    obtain ⟨hcfg, hsink, hdec, -⟩ := hm.frame
    exact ⟨hcfg ▸ hsink ▸ hm.keeps_inv hc hs.enc, hcfg ▸ hdec ▸ hs.dec⟩
  | decoder _ hm =>
    obtain ⟨hcfg, hsink, henc, -⟩ := hm.frame
    exact ⟨hcfg ▸ hsink ▸ henc ▸ hs.enc, hcfg ▸ hm.keeps_inv hs.dec⟩
  | reset => exact ⟨EncUnit.idle_inv _ _, DecUnit.idle_inv _⟩
  | harmless => exact hs

/-- A step that goes on is a turn of an admitted machine, on the state with other inputs at most. -/
theorem step_performed {s t : State} (h : step s = .next t) :
    s.cfg.Admitted ∧ ∃ rest, Performed { s with inputs := rest } (schedule s).1 t := by
  obtain ⟨ha, hp⟩ := step_next h
  obtain ⟨rest, hrest⟩ := schedule_state s
  exact ⟨ha, rest, hrest ▸ perform_next hp⟩

/-- Settles O7: a step is a turn (`step_performed`), and each kind of turn keeps both units' invariants. -/
theorem everyStepKeepsTheInvariant : Obligations.EveryStepKeepsTheInvariant := by
  intro s t hs h
  obtain ⟨⟨-, -, -, hk4⟩, rest, hp⟩ := step_performed h
  exact hp.keeps_inv hk4 ⟨hs.enc, hs.dec⟩

/-- Settles O6: at reset both units are at rest. -/
theorem invariantHoldsAtReset : Obligations.InvariantHoldsAtReset := by
  have hreset : ∀ c : Config, (State.resetOf c).Inv := fun c => ⟨EncUnit.idle_inv c false, DecUnit.idle_inv c⟩
  exact ⟨hreset, hreset Config.block⟩

end Sys2Proof.Machine
end

section
/-! PROOF. Reset, and what writes the parameters and SINK_BOUND (10_state.md R23, R24, R32). -/

namespace Sys2Proof.Machine

/-- Settles O4: no turn writes the parameters (`Performed.frame`), and only an admitted machine takes one. -/
theorem parametersAreNeverWritten : Obligations.ParametersAreNeverWritten := by
  intro s t h
  obtain ⟨ha, rest, hp⟩ := step_performed h
  exact ⟨hp.frame.1, ha⟩

/-- The turns that can change SINK_BOUND: reset, and an operation with op = 11. -/
theorem Performed.sinkBound_changed {s t : State} {a : Input} (h : Performed s a t)
    (hne : t.sinkBound ≠ s.sinkBound) :
    (a = .reset ∧ t.sinkBound = false) ∨
    ∃ w : PortWord, (a = .request w ∨ a = .serial w) ∧ w.op = 3 ∧ t.sinkBound = w.v := by
  cases h with
  | port _ w ha _ _ hb => exact .inr ⟨w, ha, hb hne⟩
  | beginEncode => exact absurd rfl hne
  | beginDecode => exact absurd rfl hne
  | encoder _ hm => exact absurd hm.frame.2.1 hne
  | decoder _ hm => exact absurd hm.frame.2.1 hne
  | reset => exact .inl ⟨rfl, rfl⟩
  | harmless => exact absurd rfl hne

/-- The turn that comes next is the input it takes, or one that the machine takes on its own. -/
theorem schedule_turn (s : State) :
    s.inputs = (schedule s).1 :: (schedule s).2.inputs ∨ (schedule s).1 = .encoderTurn ∨
    (schedule s).1 = .decoderTurn ∨ (schedule s).1 = .request PortWord.quiet := by
  rcases schedule_cases s with ⟨-, -, h⟩ | ⟨-, -, -, h⟩ | ⟨-, -, -, h⟩ | ⟨a, rest, hi, h, -⟩ |
    ⟨w, rest, -, ⟨-, -, h⟩ | ⟨-, -, h⟩⟩ <;> rw [h]
  · exact .inr (.inl rfl)
  · exact .inr (.inr (.inl rfl))
  · exact .inr (.inr (.inr rfl))
  · exact .inl hi
  · exact .inr (.inl rfl)
  · exact .inr (.inr (.inl rfl))

/-- A turn that is reset or an operation with op = 11 is the head of the inputs: the machine takes no such turn on its own. -/
theorem schedule_takes_head (s : State)
    (h : (schedule s).1 = .reset ∨
      ∃ w : PortWord, ((schedule s).1 = .request w ∨ (schedule s).1 = .serial w) ∧ w.op = 3) :
    s.inputs = (schedule s).1 :: (schedule s).2.inputs := by
  rcases schedule_turn s with hi | ht | ht | ht
  · exact hi
  · simp [ht] at h
  · simp [ht] at h
  · simp [ht, PortWord.quiet] at h

/-- Settles O5: the turn that changes SINK_BOUND is reset or an operation with op = 11, and so the input that was taken. -/
theorem onlyBindSinkAndResetWriteSinkBound : Obligations.OnlyBindSinkAndResetWriteSinkBound := by
  intro s t h hne
  have hp := perform_next (step_next h).2
  obtain ⟨rest, hrest⟩ := schedule_state s
  have hne' : t.sinkBound ≠ (schedule s).2.sinkBound := by rwa [hrest]
  refine ⟨t.inputs, rfl, ?_⟩
  rw [hp.frame.2]
  obtain ⟨ha, hb⟩ | ⟨w, ha, ho, hb⟩ := hp.sinkBound_changed hne'
  · exact .inl ⟨ha ▸ schedule_takes_head s (.inl ha), hb⟩
  · have hi := schedule_takes_head s (.inr ⟨w, ha, ho⟩)
    refine .inr ⟨w, ?_, ho, hb⟩
    rw [hi]
    exact ha.imp (congrArg (· :: _)) (congrArg (· :: _))

/-- Settles O1: reset is a literal of the model, and R9's sizes are the packet sizes (`Config.exists_packetSize`). -/
theorem resetHasNoSinkAndIdleUnits : Obligations.ResetHasNoSinkAndIdleUnits :=
  ⟨fun _ => ⟨rfl, rfl, rfl, rfl, rfl, rfl, rfl, rfl, rfl⟩, rfl, Config.packetSize_ge_five,
    fun n h => ⟨_, Config.rc.exists_packetSize n h⟩⟩

end Sys2Proof.Machine
end

section
/-! PROOF. What a row of one unit can answer, with the rows the port performs at once: one of the unit's moves, or one entry more in the
unit's log. With it the frame of each unit's rows (20_memory.md R49, R46). -/

namespace Sys2Proof.Machine

theorem execEncode_next {pkt : List Byte} {s t : State} (h : execEncode pkt s = .next t) :
    t = s ∨ ∃ f, t = s.emit f := by
  unfold execEncode at h
  split at h
  · cases h
  · split at h
    · cases h
      exact .inr ⟨_, rfl⟩
    · cases h
      exact .inl rfl

theorem execEncNosink_next {pkt : List Byte} {s t : State} (h : execEncNosink pkt s = .next t) : t = s := by
  unfold execEncNosink at h
  split at h <;> cases h
  rfl

theorem execDecode_next {buf : List Byte} {s t : State} (h : execDecode buf s = .next t) : ∃ r, t = s.give r := by
  unfold execDecode at h
  split at h <;> cases h
  exact ⟨_, rfl⟩

/-- Where a row of the encoder takes the machine. -/
theorem exec_encoderRow_next {i : Instr} {s t : State} (hi : i.isEncoderRow = true) (h : exec i s = .next t) :
    EncMove s t ∨ ∃ f, t = s.emit f := by
  have byteLevel (hport : ∀ p, i ≠ .encode p ∧ i ≠ .encNosink p) : EncMove s t := by
    obtain ⟨t', ht', hm⟩ | ⟨hf, -⟩ := exec_encoder_move i hi hport s
    · cases h.symm.trans ht'
      exact hm
    · cases h.symm.trans hf
  cases i with
  | encode p =>
    obtain rfl | hf := execEncode_next h
    · exact .inl .rest
    · exact .inr hf
  | encNosink p =>
    obtain rfl := execEncNosink_next h
    exact .inl .rest
  | _ => exact .inl (byteLevel fun _ => ⟨nofun, nofun⟩)

/-- Where a row of the decoder takes the machine. -/
theorem exec_decoderRow_next {i : Instr} {s t : State} (hi : i.isDecoderRow = true) (h : exec i s = .next t) :
    DecMove s t ∨ ∃ r, t = s.give r := by
  have byteLevel (hport : ∀ buf, i ≠ .decode buf) : DecMove s t := by
    obtain ⟨t', ht', hm⟩ := exec_decoder_move i hi hport s
    cases h.symm.trans ht'
    exact hm
  cases i with
  | decode buf => exact .inr (execDecode_next h)
  | _ => exact .inl (byteLevel fun _ => nofun)

/-- A row of the encoder leaves everything but the encoder and the sink's log. -/
theorem exec_encoderRow_frame {i : Instr} {s t : State} (hi : i.isEncoderRow = true) (h : exec i s = .next t) :
    t.dec = s.dec ∧ t.sinkBound = s.sinkBound ∧ t.results = s.results ∧ t.cfg = s.cfg ∧ t.inputs = s.inputs := by
  obtain hm | ⟨f, rfl⟩ := exec_encoderRow_next hi h
  · obtain ⟨hcfg, hsink, hdec, hinputs, hresults, -⟩ := hm.frame
    exact ⟨hdec, hsink, hresults, hcfg, hinputs⟩
  · exact ⟨rfl, rfl, rfl, rfl, rfl⟩

/-- A row of the decoder leaves everything but the decoder and the result log. -/
theorem exec_decoderRow_frame {i : Instr} {s t : State} (hi : i.isDecoderRow = true) (h : exec i s = .next t) :
    t.enc = s.enc ∧ t.sinkBound = s.sinkBound ∧ t.sunk = s.sunk ∧ t.cfg = s.cfg ∧ t.inputs = s.inputs := by
  obtain hm | ⟨r, rfl⟩ := exec_decoderRow_next hi h
  · obtain ⟨hcfg, hsink, henc, hinputs, hsunk, -⟩ := hm.frame
    exact ⟨henc, hsink, hsunk, hcfg, hinputs⟩
  · exact ⟨rfl, rfl, rfl, rfl, rfl⟩

/-- Settles O56: the frames of the two units' rows. -/
theorem unitsKeepTheOthersState : Obligations.UnitsKeepTheOthersState :=
  fun _ _ _ h => ⟨(exec_encoderRow_frame · h), (exec_decoderRow_frame · h)⟩

/-- Outside BODY no row but ENC_START changes the encoder (R103 to R106). -/
theorem exec_encoderRow_outside_body {i : Instr} {s t : State} (hi : i.isEncoderRow = true) (hstart : i ≠ .encStart)
    (hst : s.enc.st ≠ .body) (h : exec i s = .next t) : t.enc = s.enc := by
  have notTaken (hexec : exec i s = .next s) : t.enc = s.enc := by
    cases h.symm.trans hexec
    rfl
  have escape (b : Byte) : encEscape b s = .next s := encEscape_notTaken b s fun h => hst h.1.1
  cases i with
  | encStart => exact absurd rfl hstart
  | encode p => obtain rfl | ⟨f, rfl⟩ := execEncode_next h <;> rfl
  | encNosink p => exact execEncNosink_next h ▸ rfl
  | encEscapeS | encEscapeE | encEscapeX => exact notTaken (escape _)
  | encPlain b => exact notTaken (execEncPlain_notTaken b s fun h => hst h.1.1)
  | encDrop => exact notTaken (execEncDrop_notTaken s fun _ h => absurd h.1 hst)
  | encFinish => exact notTaken (execEncFinish_notTaken s fun h => hst h.1)
  | _ => cases hi

end Sys2Proof.Machine
end

section
/-! PROOF. The working buffers: no write past their bounds, and what a step leaves in them (20_memory.md R42 and R43). -/

namespace Sys2Proof.Machine

theorem Memory.read_mem_fst {m : Memory} {a : Nat} {v : Byte} (h : m.read a = some v) : a ∈ m.map Prod.fst := by
  induction m with
  | nil => cases h
  | cons kw m ih =>
    obtain ⟨k, w⟩ := kw
    unfold Memory.read at h
    split at h
    case isTrue ha => exact ha ▸ List.mem_cons_self
    case isFalse => exact List.mem_cons_of_mem _ (ih h)

/-- In a buffer of which exactly [0..n) is written, only an index below n is listed. -/
theorem Memory.lt_of_read {m : Memory} {n a : Nat} {v : Byte} (hw : m.map Prod.fst = List.range n)
    (h : m.read a = some v) : a < n :=
  List.mem_range.mp (hw ▸ Memory.read_mem_fst h)

/-- enc_len <= C (R43). -/
theorem EncUnit.Inv.len_le {c : Config} {bound : Bool} {u : EncUnit} (hu : u.Inv c bound) : u.len ≤ c.frameCap := by
  cases hst : u.st with
  | idle => exact (hu.waiting hst).1 ▸ Nat.zero_le _
  | body => exact Nat.le_of_succ_le (hu.room hst).2
  | done => exact absurd hst hu.notDone

/-- A turn with the encoder's invariant and K4 finds room for the byte it writes. -/
theorem Failed.ne_outOfBounds {s : State} {a : Input} {f : Fault} (h : Failed s a f) (hc : s.cfg.K4)
    (hs : s.enc.Inv s.cfg s.sinkBound) : f ≠ .outOfBounds := by
  cases h with
  | bounds hfull =>
    obtain ⟨-, -, hzero⟩ | ⟨hst, hlen⟩ := hfull
    · exact absurd (hzero ▸ hc : 2 ≤ 0) (by decide)
    · exact absurd (Nat.le_trans (hs.room hst).2 hlen) (Nat.not_succ_le_self _)
  | _ => exact nofun

theorem step_ne_outOfBounds {s : State} (hs : s.Inv) : step s ≠ .fault .outOfBounds := by
  intro h
  by_cases hadm : s.cfg.Admitted
  · rw [step_admitted s hadm] at h
    obtain ⟨rest, hrest⟩ := schedule_state s
    rw [hrest] at h
    exact (perform_fault h).ne_outOfBounds hadm.2.2.2 hs.enc rfl
  · obtain ⟨k, -, hk⟩ := step_notAdmitted s hadm
    cases hk.symm.trans h

/-- Settles O8: the invariant bounds enc_len and idx, exactly the indices below them are written, and it leaves room for every
write. -/
theorem workingBufferWritesStayInBounds : Obligations.WorkingBufferWritesStayInBounds := by
  intro s hs
  refine ⟨step_ne_outOfBounds hs, hs.enc.len_le, hs.dec.index, fun a b h => ?_, fun a b h => ?_⟩
  · exact Nat.lt_of_lt_of_le (Memory.lt_of_read hs.enc.written h) hs.enc.len_le
  · exact Nat.lt_of_lt_of_le (Memory.lt_of_read hs.dec.written h) hs.dec.index

/-- The bytes of enc_buf that a move of the encoder keeps, while the same ENCODE is in progress: from IDLE all but index 0, else all
but the indices that enc_len passes. -/
theorem EncMove.keeps_bytes {s t : State} (h : EncMove s t) (hp : t.enc.pkt = s.enc.pkt) (hne : s.enc.pkt ≠ none) :
    (s.enc.st = .idle → ∀ a, a ≠ 0 → t.enc.buf.read a = s.enc.buf.read a) ∧
    (s.enc.st ≠ .idle → s.enc.len ≤ t.enc.len ∧ ∀ a, ¬ (s.enc.len ≤ a ∧ a < t.enc.len) →
      t.enc.buf.read a = s.enc.buf.read a) := by
  cases h with
  | rest => exact ⟨fun _ _ _ => rfl, fun _ => ⟨Nat.le_refl _, fun _ _ => rfl⟩⟩
  | start hst => exact ⟨fun _ a ha => Memory.read_write_other _ 0 a _ ha, fun hn => absurd hst hn⟩
  | append b hb _ m hm =>
    exact ⟨fun hst => (nomatch hb.1.symm.trans hst), fun _ => ⟨Nat.le_add_right _ _, hm.other⟩⟩
  | drop => exact ⟨fun _ _ _ => rfl, fun _ => ⟨Nat.le_refl _, fun _ _ => rfl⟩⟩
  | done => exact absurd hp.symm hne

/-- The bytes of asm that a move of the decoder keeps, while the same DECODE is in progress. -/
theorem DecMove.keeps_bytes {s t : State} (h : DecMove s t) (hb : t.dec.buf = s.dec.buf) (hne : s.dec.buf ≠ none)
    (a : Nat) (ha : a ≠ s.dec.idx ∨ t.dec.idx = s.dec.idx) : t.dec.asm.read a = s.dec.asm.read a := by
  cases h with
  | rest => rfl
  | count => rfl
  | store buf _ _ v =>
    simp only [State.withDec_dec] at ha ⊢
    by_cases hroom : s.dec.counted.idx < s.cfg.packetSize
    · rw [s.dec.counted.store_room s.cfg v hroom] at ha ⊢
      exact Memory.read_write_other _ _ _ _ (ha.resolve_right (Nat.succ_ne_self _))
    · rw [s.dec.counted.store_full s.cfg v (Nat.le_of_not_lt hroom)]
      rfl
  | done => exact absurd hb.symm hne

/-- A row of the encoder that answers a next state with the ENCODE still in progress keeps the bytes of enc_buf it does not write:
the move is ENC_START's exactly from IDLE. -/
theorem exec_encoderRow_keeps_bytes {i : Instr} {s t : State} (hi : i.isEncoderRow = true) (h : exec i s = .next t)
    (hp : t.enc.pkt = s.enc.pkt) (hne : s.enc.pkt ≠ none) :
    (i = .encStart → ∀ a, a ≠ 0 → t.enc.buf.read a = s.enc.buf.read a) ∧
    (i ≠ .encStart → s.enc.len ≤ t.enc.len ∧ ∀ a, ¬ (s.enc.len ≤ a ∧ a < t.enc.len) →
      t.enc.buf.read a = s.enc.buf.read a) := by
  obtain hm | ⟨f, rfl⟩ := exec_encoderRow_next hi h
  · obtain ⟨hidle, hbusy⟩ := hm.keeps_bytes hp hne
    refine ⟨?_, fun hstart => ?_⟩
    · rintro rfl
      by_cases hst : s.enc.st = .idle
      · exact hidle hst
      · cases h.symm.trans (execEncStart_notTaken s (.inl hst))
        exact fun _ _ => rfl
    · by_cases hst : s.enc.st = .idle
      · have henc := exec_encoderRow_outside_body hi hstart (hst ▸ nofun) h
        exact henc ▸ ⟨Nat.le_refl _, fun _ _ => rfl⟩
      · exact hbusy hst
  · exact ⟨fun _ _ _ => rfl, fun _ => ⟨Nat.le_refl _, fun _ _ => rfl⟩⟩

/-- A row of the decoder that answers a next state with the DECODE still in progress keeps the bytes of asm it does not write. -/
theorem exec_decoderRow_keeps_bytes {i : Instr} {s t : State} (hi : i.isDecoderRow = true) (h : exec i s = .next t)
    (hb : t.dec.buf = s.dec.buf) (hne : s.dec.buf ≠ none) (a : Nat) (ha : a ≠ s.dec.idx ∨ t.dec.idx = s.dec.idx) :
    t.dec.asm.read a = s.dec.asm.read a := by
  obtain hm | ⟨r, rfl⟩ := exec_decoderRow_next hi h
  · exact hm.keeps_bytes hb hne a ha
  · rfl

/-- Settles O60: each unit's moves keep the bytes they do not write, and a row of one unit leaves the other unit's buffer. -/
theorem memoryStepsWriteOnlyTheirBytes : Obligations.MemoryStepsWriteOnlyTheirBytes := by
  intro i s t h
  refine ⟨fun hi hp hne => ?_, fun hi hb hne => ?_⟩
  · obtain ⟨hdec, -⟩ := exec_encoderRow_frame hi h
    exact ⟨fun a => by rw [hdec], exec_encoderRow_keeps_bytes hi h hp hne⟩
  · obtain ⟨henc, -⟩ := exec_decoderRow_frame hi h
    exact ⟨fun a => by rw [henc], exec_decoderRow_keeps_bytes hi h hb hne⟩

end Sys2Proof.Machine
end

section
/-! PROOF. A row reads and writes its own unit, its own log, the parameters and SINK_BOUND, and nothing of the other unit
(20_memory.md R49(d)): giving the other unit another state gives that state back, and nothing else changes. -/

namespace Sys2Proof.Machine

/-- `s` with the decoder's side of the machine, its unit and the result log, as given. -/
def State.setDecoderSide (s : State) (d : DecUnit) (rs : List Result) : State := { s with dec := d, results := rs }

/-- `s` with the encoder's side of the machine, its unit and the sink's log, as given. -/
def State.setEncoderSide (s : State) (e : EncUnit) (es : List SinkEvent) : State := { s with enc := e, sunk := es }

/-- An outcome with its next state changed by `f`. -/
def mapNext (f : State → State) : Host.Outcome State Fault Refusal → Host.Outcome State Fault Refusal
  | .next s => .next (f s)
  | .fault r => .fault r
  | .refused r => .refused r

@[simp] theorem State.setDecoderSide_cfg (s : State) (d : DecUnit) (rs : List Result) :
    (s.setDecoderSide d rs).cfg = s.cfg := rfl
@[simp] theorem State.setDecoderSide_sinkBound (s : State) (d : DecUnit) (rs : List Result) :
    (s.setDecoderSide d rs).sinkBound = s.sinkBound := rfl
@[simp] theorem State.setDecoderSide_enc (s : State) (d : DecUnit) (rs : List Result) :
    (s.setDecoderSide d rs).enc = s.enc := rfl
@[simp] theorem State.setEncoderSide_cfg (s : State) (e : EncUnit) (es : List SinkEvent) :
    (s.setEncoderSide e es).cfg = s.cfg := rfl
@[simp] theorem State.setEncoderSide_dec (s : State) (e : EncUnit) (es : List SinkEvent) :
    (s.setEncoderSide e es).dec = s.dec := rfl

@[simp] theorem State.setDecoderSide_withEnc (s : State) (u : Option EncUnit) (d : DecUnit) (rs : List Result) :
    (s.setDecoderSide d rs).withEnc u = mapNext (·.setDecoderSide d rs) (s.withEnc u) := by
  cases u <;> rfl

@[simp] theorem State.setDecoderSide_appendUnit (s : State) (vs : List Byte) (d : DecUnit) (rs : List Result) :
    (s.setDecoderSide d rs).appendUnit vs = mapNext (·.setDecoderSide d rs) (s.appendUnit vs) :=
  s.setDecoderSide_withEnc _ d rs

/-- Under a guard that reads the same on both sides, it is enough that the branches correspond. The two ways of deciding the guard may
be written differently. -/
theorem ite_eq_mapNext {f : State → State} {P : Prop} {hP hP' : Decidable P}
    {a a' o o' : Host.Outcome State Fault Refusal} (h : a = mapNext f o) (h' : a' = mapNext f o') :
    @ite _ P hP a a' = mapNext f (@ite _ P hP' o o') := by
  by_cases hg : P
  · rwa [if_pos hg, if_pos hg]
  · rwa [if_neg hg, if_neg hg]

/-- A row of the encoder does not depend on the decoder's side. -/
theorem exec_setDecoderSide {i : Instr} (hi : i.isEncoderRow = true) (s : State) (d : DecUnit) (rs : List Result) :
    exec i (s.setDecoderSide d rs) = mapNext (·.setDecoderSide d rs) (exec i s) := by
  have escape (b : Byte) : encEscape b (s.setDecoderSide d rs) = mapNext (·.setDecoderSide d rs) (encEscape b s) :=
    ite_eq_mapNext (s.setDecoderSide_appendUnit _ d rs) rfl
  cases i with
  | encode p =>
    simp only [exec, execEncode, State.setDecoderSide_cfg]
    split
    · rfl
    · exact ite_eq_mapNext rfl rfl
  | encNosink p =>
    simp only [exec, execEncNosink, State.setDecoderSide_cfg]
    split <;> rfl
  | encStart => exact ite_eq_mapNext (s.setDecoderSide_withEnc _ d rs) rfl
  | encEscapeS | encEscapeE | encEscapeX => exact escape _
  | encPlain b => exact ite_eq_mapNext (s.setDecoderSide_appendUnit _ d rs) rfl
  | encDrop =>
    simp only [exec, execEncDrop, State.setDecoderSide_enc, State.setDecoderSide_cfg]
    split
    · rfl
    · exact ite_eq_mapNext rfl rfl
  | encFinish =>
    simp only [exec, execEncFinish, State.setDecoderSide_enc, State.setDecoderSide_cfg]
    refine ite_eq_mapNext ?_ rfl
    split <;> rfl
  | _ => cases hi

/-- A row of the decoder does not depend on the encoder's side. -/
theorem exec_setEncoderSide {i : Instr} (hi : i.isDecoderRow = true) (s : State) (e : EncUnit) (es : List SinkEvent) :
    exec i (s.setEncoderSide e es) = mapNext (·.setEncoderSide e es) (exec i s) := by
  cases i with
  | decode buf =>
    simp only [exec, execDecode, State.setEncoderSide_cfg]
    split <;> rfl
  | decScanStart | decScanSkip | decBodyEsc | decBodyEnd | decBodyData | decEscS | decEscE | decEscX | decEscBad
  | decDrainEnd | decDrainSkip => exact ite_eq_mapNext rfl rfl
  | decEscEnd =>
    simp only [exec, execDecEscEnd, State.setEncoderSide_dec, State.setEncoderSide_cfg]
    refine ite_eq_mapNext ?_ rfl
    split <;> rfl
  | decExhaust =>
    simp only [exec, execDecExhaust, State.setEncoderSide_dec]
    split
    · rfl
    · exact ite_eq_mapNext rfl rfl
  | _ => cases hi

/-- A row of the encoder answers the same with another decoder's side. -/
theorem exec_encoderRow_setDecoderSide {i : Instr} {s t : State} (hi : i.isEncoderRow = true) (h : exec i s = .next t)
    (d : DecUnit) (rs : List Result) : exec i (s.setDecoderSide d rs) = .next (t.setDecoderSide d rs) := by
  rw [exec_setDecoderSide hi, h]
  rfl

/-- A row of the decoder answers the same with another encoder's side. -/
theorem exec_decoderRow_setEncoderSide {i : Instr} {s t : State} (hi : i.isDecoderRow = true) (h : exec i s = .next t)
    (e : EncUnit) (es : List SinkEvent) : exec i (s.setEncoderSide e es) = .next (t.setEncoderSide e es) := by
  rw [exec_setEncoderSide hi, h]
  rfl

/-- A row of the encoder changes the encoder's side only. -/
theorem exec_encoderRow_eq {i : Instr} {s t : State} (hi : i.isEncoderRow = true) (h : exec i s = .next t) :
    t = s.setEncoderSide t.enc t.sunk := by
  obtain ⟨hdec, hsink, hresults, hcfg, hinputs⟩ := exec_encoderRow_frame hi h
  rw [State.setEncoderSide, ← hdec, ← hsink, ← hresults, ← hcfg, ← hinputs]

/-- A row of the decoder changes the decoder's side only. -/
theorem exec_decoderRow_eq {i : Instr} {s t : State} (hi : i.isDecoderRow = true) (h : exec i s = .next t) :
    t = s.setDecoderSide t.dec t.results := by
  obtain ⟨henc, hsink, hsunk, hcfg, hinputs⟩ := exec_decoderRow_frame hi h
  rw [State.setDecoderSide, ← henc, ← hsink, ← hsunk, ← hcfg, ← hinputs]

/-- Settles O55: the second row answers the same without the first one's change, and the first the same after the second's. -/
theorem encoderAndDecoderRowsCommute : Obligations.EncoderAndDecoderRowsCommute := by
  intro i j s t u hi hj
  refine ⟨fun h1 h2 => ⟨s.setDecoderSide u.dec u.results, ?_, ?_⟩,
    fun h1 h2 => ⟨s.setEncoderSide u.enc u.sunk, ?_, ?_⟩⟩
  · have ht : t.setEncoderSide s.enc s.sunk = s := congrArg (·.setEncoderSide s.enc s.sunk) (exec_encoderRow_eq hi h1)
    have hu : u.setEncoderSide s.enc s.sunk = (t.setEncoderSide s.enc s.sunk).setDecoderSide u.dec u.results :=
      congrArg (·.setEncoderSide s.enc s.sunk) (exec_decoderRow_eq hj h2)
    have h := exec_decoderRow_setEncoderSide hj h2 s.enc s.sunk
    rwa [hu, ht] at h
  · have h := exec_encoderRow_setDecoderSide hi h1 u.dec u.results
    rwa [← exec_decoderRow_eq hj h2] at h
  · have ht : t.setDecoderSide s.dec s.results = s := congrArg (·.setDecoderSide s.dec s.results) (exec_decoderRow_eq hj h1)
    have hu : u.setDecoderSide s.dec s.results = (t.setDecoderSide s.dec s.results).setEncoderSide u.enc u.sunk :=
      congrArg (·.setDecoderSide s.dec s.results) (exec_encoderRow_eq hi h2)
    have h := exec_encoderRow_setDecoderSide hi h2 s.dec s.results
    rwa [hu, ht] at h
  · have h := exec_decoderRow_setEncoderSide hj h1 u.enc u.sunk
    rwa [← exec_encoderRow_eq hi h2] at h

end Sys2Proof.Machine
end

section
/-! PROOF. The two logs, SinkEmit events and results: a step adds at most one entry, at the end of one of them (20_memory.md R46(c) to
R46(e)). -/

namespace Sys2Proof.Machine

/-- From `s` to `t` the logs are as before, or one of them is one entry longer. -/
def State.AddsAtMostOneEntry (s t : State) : Prop :=
  (t.sunk = s.sunk ∧ t.results = s.results) ∨
  (t.results = s.results ∧ ∃ e : SinkEvent, t.sunk = s.sunk ++ [e] ∧ e.length = e.frame.length) ∨
  (t.sunk = s.sunk ∧ ∃ r : Result, t.results = s.results ++ [r])

theorem PortDone.addsAtMostOneEntry {s t : State} (h : PortDone s t) : s.AddsAtMostOneEntry t := by
  cases h with
  | same => exact .inl ⟨rfl, rfl⟩
  | emit f => exact .inr (.inl ⟨rfl, _, rfl, rfl⟩)
  | give r => exact .inr (.inr ⟨rfl, r, rfl⟩)
  | bind => exact .inl ⟨rfl, rfl⟩

theorem EncMove.addsAtMostOneEntry {s t : State} (h : EncMove s t) : s.AddsAtMostOneEntry t := by
  obtain ⟨-, -, -, -, hresults, hsunk | hsunk⟩ := h.frame
  · exact .inl ⟨hsunk, hresults⟩
  · exact .inr (.inl ⟨hresults, hsunk⟩)

theorem DecMove.addsAtMostOneEntry {s t : State} (h : DecMove s t) : s.AddsAtMostOneEntry t := by
  obtain ⟨-, -, -, -, hsunk, hresults | hresults⟩ := h.frame
  · exact .inl ⟨hsunk, hresults⟩
  · exact .inr (.inr ⟨hsunk, hresults⟩)

theorem Performed.addsAtMostOneEntry {s t : State} {a : Input} (h : Performed s a t) : s.AddsAtMostOneEntry t := by
  cases h with
  | port _ _ _ _ ht => exact ht.addsAtMostOneEntry
  | encoder _ hm => exact hm.addsAtMostOneEntry
  | decoder _ hm => exact hm.addsAtMostOneEntry
  | beginEncode | beginDecode | reset | harmless => exact .inl ⟨rfl, rfl⟩

/-- Settles O57: a step is one turn (`step_performed`), and each kind of turn adds at most one entry. -/
theorem atMostOneEventPerStep : Obligations.AtMostOneEventPerStep := by
  intro s t h
  obtain ⟨-, rest, hp⟩ := step_performed h
  exact hp.addsAtMostOneEntry

end Sys2Proof.Machine
end

section
/-! PROOF. An operation waits at the port while its unit works (20_memory.md R49 and R50). -/

namespace Sys2Proof.Machine

/-- While an operation waits, its unit takes the turn and no input is taken. -/
theorem schedule_waiting {s : State} {w : PortWord} {rest : List Input} {turn : Input}
    (hi : s.inputs = .request w :: rest ∨ s.inputs = .serial w :: rest) (hb : blockedBy s w = some turn) :
    schedule s = (turn, s) := by
  unfold schedule
  obtain hi | hi := hi
  · simp only [hi, hb]
  · simp only [hi, hb]

theorem blockedBy_encode {s : State} {w : PortWord} (hw : w.op = 1) (hb : s.enc.busy = true) :
    blockedBy s w = some .encoderTurn :=
  if_pos ⟨hw, hb⟩

theorem blockedBy_decode {s : State} {w : PortWord} (hw : w.op = 2) (hb : s.dec.busy = true) :
    blockedBy s w = some .decoderTurn := by
  have hne : ¬ (w.op = 1 ∧ s.enc.busy = true) := fun h => absurd (hw.symm.trans h.1) (by decide)
  rw [blockedBy, if_neg hne, if_pos ⟨hw, hb⟩]

theorem run_decoded {s : State} {p : Present} {i : Instr} (h : decode s.cfg p = .ok i) : run p s = exec i s := by
  unfold run
  rw [h]

/-- Settles O16: an ENCODE waits for a busy encoder and a DECODE for a busy decoder, which takes the turn and runs what it presents. -/
theorem operationsOfAUnitAreOneAtATime : Obligations.OperationsOfAUnitAreOneAtATime := by
  intro s w rest i hadm hi
  refine ⟨fun ⟨hw, hbusy⟩ hdec => ?_, fun ⟨hw, hbusy⟩ hdec => ?_⟩
  · rw [step_admitted s hadm, schedule_waiting hi (blockedBy_encode hw (s.enc.busy_iff.mpr hbusy))]
    exact run_decoded hdec
  · rw [step_admitted s hadm, schedule_waiting hi (blockedBy_decode hw (s.dec.busy_iff.mpr hbusy))]
    exact run_decoded hdec

end Sys2Proof.Machine
end

section
/-! PROOF. The byte tables of 30_encoding.md: the six special bytes, and the row that each unit selects for each byte, as a chain of
tests on the byte (R62, R63). Every row selected for a byte is well formed. -/

namespace Sys2Proof

/-- S, E, X and their escaped forms are six different bytes (R61). -/
theorem Config.Admitted.special_nodup {c : Config} (hc : c.Admitted) : (c.reserved ++ c.escaped).Nodup := by
  obtain ⟨hSE, hSX, hEX, -⟩ := hc.special_ne
  have hres : c.reserved.Nodup := by simp [Config.reserved, hSE, hSX, hEX]
  have hesc : (c.reserved.map c.esc).Nodup := List.Pairwise.map c.esc (fun _ _ hne h => hne (c.esc_inj h)) hres
  exact List.nodup_append.mpr ⟨hres, hesc, fun _ hr _ hq h => hc.escaped_not_reserved hq (h ▸ hr)⟩

/-- The encoder's rows for a byte whose unit fits (R62). -/
theorem decodeEncoderByte_fits (c : Config) (b : Byte) :
    decodeEncoderByte c b true =
      if b = c.startByte then .encEscapeS else if b = c.endByte then .encEscapeE
      else if b = c.escByte then .encEscapeX else .encPlain b := by
  rw [decodeEncoderByte, if_pos rfl, Config.encClass]
  by_cases hS : b = c.startByte
  · rw [if_pos hS, if_pos hS]
  rw [if_neg hS, if_neg hS]
  by_cases hE : b = c.endByte
  · rw [if_pos hE, if_pos hE]
  rw [if_neg hE, if_neg hE]
  by_cases hX : b = c.escByte
  · rw [if_pos hX, if_pos hX]
  rw [if_neg hX, if_neg hX]

/-- A byte outside R selects ENC_PLAIN (R62). -/
theorem decodeEncoderByte_plain {c : Config} {b : Byte} (h : b ∉ c.reserved) :
    decodeEncoderByte c b true = .encPlain b := by
  rw [Config.mem_reserved, not_or, not_or] at h
  rw [decodeEncoderByte_fits, if_neg h.1, if_neg h.2.1, if_neg h.2.2]

/-- R63 in SCAN. -/
theorem decodeDecoderByte_scan {c : Config} (hc : c.Admitted) (b : Byte) :
    decodeDecoderByte c .scan b = if b = c.startByte then .decScanStart else .decScanSkip b := by
  unfold decodeDecoderByte
  by_cases hS : b = c.startByte
  · rw [if_pos hS, hS, hc.decClass_special.1]
  rw [if_neg hS]
  obtain ⟨isS, -⟩ := c.decClass_spec b
  cases hcl : c.decClass b with
  | markS => exact absurd (isS hcl) hS
  | _ => rfl

/-- R63 in BODY. -/
theorem decodeDecoderByte_body {c : Config} (hc : c.Admitted) (b : Byte) :
    decodeDecoderByte c .body b =
      if b = c.escByte then .decBodyEsc else if b = c.endByte then .decBodyEnd else .decBodyData b := by
  obtain ⟨-, hclE, hclX, -⟩ := hc.decClass_special
  unfold decodeDecoderByte
  by_cases hX : b = c.escByte
  · rw [if_pos hX, hX, hclX]
  rw [if_neg hX]
  by_cases hE : b = c.endByte
  · rw [if_pos hE, hE, hclE]
  rw [if_neg hE]
  obtain ⟨-, isE, isX, -⟩ := c.decClass_spec b
  cases hcl : c.decClass b with
  | markE => exact absurd (isE hcl) hE
  | markX => exact absurd (isX hcl) hX
  | _ => rfl

/-- R63 in ESCD. -/
theorem decodeDecoderByte_escd {c : Config} (hc : c.Admitted) (b : Byte) :
    decodeDecoderByte c .escd b =
      if b = c.esc c.startByte then .decEscS else if b = c.esc c.endByte then .decEscE
      else if b = c.esc c.escByte then .decEscX else if b = c.endByte then .decEscEnd else .decEscBad b := by
  obtain ⟨-, hclE, -, hclS', hclE', hclX'⟩ := hc.decClass_special
  unfold decodeDecoderByte
  by_cases hS' : b = c.esc c.startByte
  · rw [if_pos hS', hS', hclS']
  rw [if_neg hS']
  by_cases hE' : b = c.esc c.endByte
  · rw [if_pos hE', hE', hclE']
  rw [if_neg hE']
  by_cases hX' : b = c.esc c.escByte
  · rw [if_pos hX', hX', hclX']
  rw [if_neg hX']
  by_cases hE : b = c.endByte
  · rw [if_pos hE, hE, hclE]
  rw [if_neg hE]
  obtain ⟨-, isE, -, isS', isE', isX', -⟩ := c.decClass_spec b
  cases hcl : c.decClass b with
  | markE => exact absurd (isE hcl) hE
  | escS => exact absurd (isS' hcl) hS'
  | escE => exact absurd (isE' hcl) hE'
  | escX => exact absurd (isX' hcl) hX'
  | _ => rfl

/-- R63 in DRAIN. -/
theorem decodeDecoderByte_drain {c : Config} (hc : c.Admitted) (b : Byte) :
    decodeDecoderByte c .drain b = if b = c.endByte then .decDrainEnd else .decDrainSkip b := by
  unfold decodeDecoderByte
  by_cases hE : b = c.endByte
  · rw [if_pos hE, hE, hc.decClass_special.2.1]
  rw [if_neg hE]
  obtain ⟨-, isE, -⟩ := c.decClass_spec b
  cases hcl : c.decClass b with
  | markE => exact absurd (isE hcl) hE
  | _ => rfl

/-- A row of a table is well formed if each of its two answers is, the second one when the test fails. -/
theorem Instr.wf_ite {c : Config} {P : Prop} [Decidable P] {i j : Instr} (hi : i.wf c = true)
    (hj : ¬ P → j.wf c = true) : (if P then i else j).wf c = true := by
  by_cases h : P
  · rwa [if_pos h]
  · rw [if_neg h]
    exact hj h

/-- The byte of a selected encoder row is of the row's class (R62). -/
theorem decodeEncoderByte_wf (c : Config) (b : Byte) (fits : Bool) : (decodeEncoderByte c b fits).wf c = true := by
  cases fits with
  | false => rfl
  | true =>
    rw [decodeEncoderByte_fits]
    refine Instr.wf_ite rfl fun hS => Instr.wf_ite rfl fun hE => Instr.wf_ite rfl fun hX => ?_
    have hr : b ∉ c.reserved := by simp [Config.mem_reserved, hS, hE, hX]
    exact decide_eq_true hr

/-- The byte of a selected decoder row is of the row's class (R63). -/
theorem decodeDecoderByte_wf {c : Config} (hc : c.Admitted) (st : DecState) (b : Byte) :
    (decodeDecoderByte c st b).wf c = true := by
  cases st with
  | scan =>
    rw [decodeDecoderByte_scan hc]
    exact Instr.wf_ite rfl fun hS => decide_eq_true hS
  | body =>
    rw [decodeDecoderByte_body hc]
    exact Instr.wf_ite rfl fun hX => Instr.wf_ite rfl fun hE => decide_eq_true ⟨hX, hE⟩
  | escd =>
    rw [decodeDecoderByte_escd hc]
    refine Instr.wf_ite rfl fun hS' => Instr.wf_ite rfl fun hE' => Instr.wf_ite rfl fun hX' =>
      Instr.wf_ite rfl fun hE => ?_
    have hq : b ∉ c.escaped := by simp [Config.mem_escaped, hS', hE', hX']
    exact decide_eq_true ⟨hq, hE⟩
  | drain =>
    rw [decodeDecoderByte_drain hc]
    exact Instr.wf_ite rfl fun hE => decide_eq_true hE

/-- Settles O11: the decoder's tables in the four states, and the six special bytes. -/
theorem decoderTransitionMapIsTheTable : Obligations.DecoderTransitionMapIsTheTable := by
  intro c hc
  exact ⟨hc.special_nodup,
    fun b => congrArg Except.ok (decodeDecoderByte_scan hc b),
    fun b => congrArg Except.ok (decodeDecoderByte_body hc b),
    fun b => congrArg Except.ok (decodeDecoderByte_escd hc b),
    fun b => congrArg Except.ok (decodeDecoderByte_drain hc b),
    fun _ => rfl⟩

/-- Settles O12: the encoder's table, and a byte of Q is outside R (K3). -/
theorem encoderClassesSelectUnits : Obligations.EncoderClassesSelectUnits := by
  intro c b hc
  refine ⟨congrArg Except.ok (decodeEncoderByte_fits c b), rfl, ?_, fun hq => ?_⟩
  · by_cases h : b ∈ c.reserved
    · rw [c.unit_reserved h, if_pos ((c.mem_reserved b).mp h)]
      rfl
    · rw [c.unit_plain h, if_neg (mt (c.mem_reserved b).mpr h)]
  · have hr : b ∉ c.reserved := hc.escaped_not_reserved ((c.mem_escaped b).mpr hq)
    exact ⟨congrArg Except.ok (decodeEncoderByte_plain hr), c.unit_plain hr⟩

end Sys2Proof
end

section
/-! PROOF. Decoding and encoding an instruction (30_encoding.md R62, R63, R70): decode after encode is the identity on well-formed
instructions, and what is decoded is well formed but for the sizes that R71 checks later. -/

namespace Sys2Proof

/-- Settles O9: a row of one fixed byte decodes by that byte's class, a row with a free byte by the last line of its state's table. -/
theorem decodeOfEncodeIsTheInstruction : Obligations.DecodeOfEncodeIsTheInstruction := by
  intro c i hc hwf
  obtain ⟨hS, hE, hX, hS', hE', hX'⟩ := hc.decClass_special
  obtain ⟨hSE, hSX, hEX, -⟩ := hc.special_ne
  cases i with
  | nop | encode _ | decode _ | bindSink _ | encNosink _ => rfl
  | encStart | encDrop | encFinish | decExhaust => rfl
  | encEscapeS | encEscapeE | encEscapeX =>
    simp [encode, decode, decodeEncoderByte_fits, hSE.symm, hSX.symm, hEX.symm]
  | encPlain b => exact congrArg Except.ok (decodeEncoderByte_plain (of_decide_eq_true hwf))
  | decScanStart | decBodyEsc | decBodyEnd | decEscS | decEscE | decEscX | decEscEnd | decDrainEnd =>
    simp only [encode, decode, decodeDecoderByte, hS, hE, hX, hS', hE', hX']
  | decScanSkip b =>
    have hb : b ≠ c.startByte := of_decide_eq_true hwf
    exact congrArg Except.ok ((decodeDecoderByte_scan hc b).trans (if_neg hb))
  | decBodyData b =>
    have hb : b ≠ c.escByte ∧ b ≠ c.endByte := of_decide_eq_true hwf
    simp [encode, decode, decodeDecoderByte_body hc, hb]
  | decEscBad b =>
    have hb : b ∉ c.escaped ∧ b ≠ c.endByte := of_decide_eq_true hwf
    simp only [Config.mem_escaped, not_or] at hb
    simp [encode, decode, decodeDecoderByte_escd hc, hb]
  | decDrainSkip b =>
    have hb : b ≠ c.endByte := of_decide_eq_true hwf
    exact congrArg Except.ok ((decodeDecoderByte_drain hc b).trans (if_neg hb))

/-- What a presentation decodes to is well formed, or one of the three operations whose size is checked when they run (R71). -/
theorem decode_wf {c : Config} (hc : c.Admitted) {p : Present} {i : Instr} (h : decode c p = .ok i) :
    i.wf c = true ∨ (∃ pkt, i = .encode pkt ∨ i = .encNosink pkt) ∨ ∃ buf, i = .decode buf := by
  cases p with
  | port sinkBound w =>
    obtain rfl : decodePort sinkBound w = i := Except.ok.inj h
    obtain h | ⟨h, -⟩ | ⟨h, -⟩ | ⟨h, -⟩ | ⟨h, -⟩ := Machine.decodePort_cases sinkBound w <;> rw [h]
    · exact .inl rfl
    · exact .inr (.inl ⟨_, .inl rfl⟩)
    · exact .inr (.inl ⟨_, .inr rfl⟩)
    · exact .inr (.inr ⟨_, rfl⟩)
    · exact .inl rfl
  | encoderIdle => cases h
  | encoderStart => cases h; exact .inl rfl
  | encoderByte b fits => cases h; exact .inl (decodeEncoderByte_wf c b fits)
  | encoderFinish => cases h; exact .inl rfl
  | decoderIdle => cases h
  | decoderByte st b => cases h; exact .inl (decodeDecoderByte_wf hc st b)
  | decoderEnd st => cases h; exact .inl rfl

/-- A DECODE is well formed exactly when its buffer is at most M bytes (R71). -/
theorem Instr.wf_decode_iff (c : Config) (buf : List Byte) :
    (Instr.decode buf).wf c = true ↔ ∀ m, c.maxBuf = some m → buf.length ≤ m := by
  unfold Instr.wf Config.bufFits
  cases c.maxBuf <;> simp

/-- Settles O10: `decode_wf`, and decoding an encoding looks at no size. -/
theorem decodedBytesAreOfTheirRowsClass : Obligations.DecodedBytesAreOfTheirRowsClass := by
  intro c p i hc h
  refine ⟨fun hpkt hbuf => ?_, ?_, ?_, ?_⟩
  · obtain hwf | ⟨pkt, hi⟩ | ⟨buf, hi⟩ := decode_wf hc h
    · exact hwf
    · exact absurd hi (not_or.mpr (hpkt pkt))
    · exact absurd hi (hbuf buf)
  · rintro pkt (rfl | rfl) <;> exact decide_eq_true_iff
  · rintro buf rfl
    exact Instr.wf_decode_iff c buf
  · obtain hwf | ⟨pkt, rfl | rfl⟩ | ⟨buf, rfl⟩ := decode_wf hc h
    · exact decodeOfEncodeIsTheInstruction c i hc hwf
    · rfl
    · rfl
    · rfl

/-- Settles O13: each op code is one line of the port's map. -/
theorem operationPortCodesAreAllAssigned : Obligations.OperationPortCodesAreAllAssigned :=
  fun _ _ _ _ => ⟨rfl, rfl, rfl, rfl, rfl⟩

/-- Settles O14: RC's words, each decoded by evaluation. -/
theorem wordsOfTheTableDecode : Obligations.WordsOfTheTableDecode :=
  ⟨rfl, rfl, rfl, rfl, rfl, rfl, rfl, rfl, rfl, rfl, rfl, rfl⟩

end Sys2Proof
end

section
/-! PROOF. What EncodeFrame's loop appends: the units of a packet's first bytes, with room left for the end marker (40_encoder.md R101).
From it the frame's length and the stuffing of its body (30_encoding.md R66, R67). -/

namespace Sys2Proof.Machine

/-- The loop appends the units of the packet's first bytes, and the end marker fits after them. -/
theorem encodeBody_eq_units (c : Config) (p : List Byte) (len : Nat) (h : len + 1 ≤ c.frameCap) :
    ∃ j, j ≤ p.length ∧ encodeBody c len p = (p.take j).flatMap c.unit ∧
      len + ((p.take j).flatMap c.unit).length + 1 ≤ c.frameCap := by
  induction p generalizing len with
  | nil => exact ⟨0, Nat.le_refl 0, rfl, h⟩
  | cons b bs ih =>
    unfold encodeBody
    split
    · rename_i hfits
      obtain ⟨j, hj, heq, hroom⟩ := ih (len + (c.unit b).length) hfits
      refine ⟨j + 1, Nat.succ_le_succ hj, by rw [heq, List.take_succ_cons, List.flatMap_cons], ?_⟩
      rw [List.take_succ_cons, List.flatMap_cons, List.length_append]
      omega
    · exact ⟨0, Nat.zero_le _, rfl, h⟩

/-- A frame is the start marker, the units of the packet's first bytes and the end marker, within the capacity (R101, R105). -/
theorem encodeFrame_eq_units {c : Config} (hc : c.K4) (p : List Byte) :
    ∃ j, j ≤ p.length ∧ encodeFrame c p = [c.startByte] ++ (p.take j).flatMap c.unit ++ [c.endByte] ∧
      1 + ((p.take j).flatMap c.unit).length + 1 ≤ c.frameCap := by
  obtain ⟨j, hj, heq, hroom⟩ := encodeBody_eq_units c p 1 hc
  exact ⟨j, hj, by rw [encodeFrame, heq]; rfl, hroom⟩

theorem framed_length (S E : Byte) (body : List Byte) : ([S] ++ body ++ [E]).length = body.length + 2 := by
  simp

/-- Settles O25: the length of the units of a packet (`units_length`), and the room of `encodeFrame_eq_units`. -/
theorem framesAreNeitherShortNorLong : Obligations.FramesAreNeitherShortNorLong := by
  rintro c p ⟨-, -, -, hk4⟩ hp
  constructor
  · intro hwhole
    have hcount : p.countP (fun b => decide (b ∈ c.reserved)) ≤ p.length := List.countP_le_length
    have hlen : (encodeFrame c p).length = c.packetSize + 2 + p.countP (fun b => decide (b ∈ c.reserved)) := by
      rw [hwhole, framed_length, units_length, hp, Nat.add_right_comm]
    omega
  · obtain ⟨j, -, heq, hroom⟩ := encodeFrame_eq_units hk4 p
    rw [heq, framed_length]
    omega

/-- In the units of any bytes, an X is the first byte of an escape pair (R64, K3). -/
theorem units_esc_followed {c : Config} (hc : c.Admitted) (p : List Byte) (k : Nat)
    (h : (p.flatMap c.unit)[k]? = some c.escByte) : ∃ q, (p.flatMap c.unit)[k + 1]? = some q ∧ q ∈ c.escaped := by
  obtain ⟨-, -, -, -, -, -, hescaped⟩ := hc.special_ne
  induction p generalizing k with
  | nil => cases h
  | cons b bs ih =>
    rw [List.flatMap_cons] at h ⊢
    by_cases hb : b ∈ c.reserved
    · have hq : c.esc b ∈ c.escaped := (c.esc_mem_escaped b).mpr hb
      rw [c.unit_reserved hb] at h ⊢
      match k with
      | 0 => exact ⟨c.esc b, rfl, hq⟩
      | 1 => exact absurd (Option.some.inj h) (hescaped _ hq).2.2
      | k + 2 => exact ih k h
    · rw [c.unit_plain hb] at h ⊢
      match k with
      | 0 => exact absurd ((c.mem_reserved b).mpr (.inr (.inr (Option.some.inj h)))) hb
      | k + 1 => exact ih k h

/-- The units of any bytes hold neither marker (R67). -/
theorem units_hold_no_marker {c : Config} (hc : c.Admitted) (p : List Byte) :
    c.startByte ∉ p.flatMap c.unit ∧ c.endByte ∉ p.flatMap c.unit := by
  simp only [List.mem_flatMap, not_exists, not_and]
  exact ⟨fun b _ => (unit_holds_no_marker c hc b).1, fun b _ => (unit_holds_no_marker c hc b).2⟩

/-- Settles O27: the body is the units of the packet's first bytes. -/
theorem frameBodiesAreStuffed : Obligations.FrameBodiesAreStuffed := by
  intro c p hc
  have hk4 : c.K4 := hc.2.2.2
  obtain ⟨j, -, heq, -⟩ := encodeFrame_eq_units hk4 p
  obtain ⟨hS, hE⟩ := units_hold_no_marker hc (p.take j)
  exact ⟨_, heq, hS, hE, units_esc_followed hc (p.take j)⟩

end Sys2Proof.Machine
end

section
/-! PROOF. The result of a DECODE (30_encoding.md R75, 41_decoder.md R146 to R148): Finish or an invalid result, of working values whose
count is within the buffer. -/

namespace Sys2Proof.Machine

/-- The loop ends in some working values that have counted no byte past the buffer, and reports their Finish or an invalid result. -/
theorem parseFrom_ends (c : Config) (q : ParseState) (buf : List Byte) :
    ∃ q' : ParseState, q'.pos ≤ q.pos + buf.length ∧
      (parseFrom c q buf = q'.finish c ∨ parseFrom c q buf = Result.invalid q'.pos) := by
  induction buf generalizing q with
  | nil => exact ⟨q, Nat.le_refl _, .inr rfl⟩
  | cons b rest ih =>
    rw [parseFrom, List.length_cons]
    cases hb : parseByte c { q with pos := q.pos + 1 } b with
    | inl q₁ =>
      have hpos : q₁.pos = q.pos + 1 := parseByte_goesOn c _ _ b hb
      obtain ⟨q', hle, hr⟩ := ih q₁
      exact ⟨q', by omega, hr⟩
    | inr r => exact ⟨{ q with pos := q.pos + 1 }, by simp, parseByte_ends c _ b r hb⟩

/-- Finish gives a packet of N bytes exactly when it is valid (R146, R148). -/
theorem ParseState.finish_pkt (c : Config) (q : ParseState) :
    ((q.finish c).valid = true → ∃ pkt, (q.finish c).pkt = some pkt ∧ pkt.length = c.packetSize) ∧
    ((q.finish c).valid = false → (q.finish c).pkt = none) := by
  unfold ParseState.finish
  split
  · rename_i h
    exact ⟨fun _ => ⟨q.stored, rfl, h.2⟩, (fun hv => nomatch hv)⟩
  · exact ⟨(fun hv => nomatch hv), fun _ => rfl⟩

/-- A DECODE counts no byte past the buffer. -/
theorem decodeFrame_consumed_le (c : Config) (buf : List Byte) : (decodeFrame c buf).consumed ≤ buf.length := by
  obtain ⟨q, hpos, hr⟩ := parseFrom_ends c ParseState.initial buf
  have hcons : (decodeFrame c buf).consumed = q.pos := by
    obtain hr | hr := hr
    · rw [decodeFrame, hr, ParseState.finish_consumed]
    · rw [decodeFrame, hr, Result.invalid_consumed]
  rw [hcons]
  exact Nat.le_trans hpos (Nat.le_of_eq (Nat.zero_add _))

/-- Settles O48: the result is a Finish or invalid, and the count is at most L. -/
theorem resultTriplesAreWellFormed : Obligations.ResultTriplesAreWellFormed := by
  intro c buf
  have hle := decodeFrame_consumed_le c buf
  obtain ⟨q, -, hr⟩ := parseFrom_ends c ParseState.initial buf
  rw [← decodeFrame] at hr
  have hpkt : ((decodeFrame c buf).valid = true →
        ∃ pkt, (decodeFrame c buf).pkt = some pkt ∧ pkt.length = c.packetSize) ∧
      ((decodeFrame c buf).valid = false → (decodeFrame c buf).pkt = none) := by
    obtain hr | hr := hr <;> rw [hr]
    · exact q.finish_pkt c
    · exact ⟨(fun hv => nomatch hv), fun _ => rfl⟩
  exact ⟨hle, hpkt.1, hpkt.2, fun _ _ _ hw hm => Nat.lt_of_le_of_lt (Nat.le_trans hle hm) hw⟩

end Sys2Proof.Machine
end

section
/-! PROOF. A step runs what its turn decodes to (30_encoding.md R70, 20_memory.md R49 and R50), for the inputs a host gives and
for a word of the opcode table placed to be the next one. -/

namespace Sys2Proof.Machine

/-- A head of the inputs that does not wait and whose turn runs a presentation: the step is exec of the instruction decoded from it. -/
theorem step_runs_head {s : State} {a : Input} {rest : List Input} {p : Present} {i : Instr} (hadm : s.cfg.Admitted)
    (hi : s.inputs = a :: rest) (hfree : ∀ w, a = .request w ∨ a = .serial w → blockedBy s w = none)
    (hperform : perform a { s with inputs := rest } = run p { s with inputs := rest })
    (hdec : decode s.cfg p = .ok i) : step s = exec i { s with inputs := rest } := by
  rw [step_admitted s hadm, schedule_head s a rest hi hfree, hperform]
  exact run_decoded hdec

/-- A request that does not wait for its unit runs the operation it decodes to. -/
theorem step_request {s : State} {w : PortWord} {rest : List Input} {i : Instr} (hadm : s.cfg.Admitted)
    (hi : s.inputs = .request w :: rest) (hfree : blockedBy s w = none)
    (hdec : decode s.cfg (.port s.sinkBound w) = .ok i) : step s = exec i { s with inputs := rest } := by
  refine step_runs_head hadm hi ?_ rfl hdec
  rintro w' (h | h) <;> cases h
  exact hfree

/-- So does an operation presented to the byte-serial realisation that has no byte-level steps. -/
theorem step_serial {s : State} {w : PortWord} {rest : List Input} {i : Instr} (hadm : s.cfg.Admitted)
    (hi : s.inputs = .serial w :: rest) (hfree : blockedBy s w = none) (henc : ¬ (w.op = 1 ∧ s.sinkBound = true))
    (hbuf : w.op ≠ 2) (hdec : decode s.cfg (.port s.sinkBound w) = .ok i) : step s = exec i { s with inputs := rest } := by
  refine step_runs_head hadm hi ?_ ((if_neg henc).trans (if_neg hbuf)) hdec
  rintro w' (h | h) <;> cases h
  exact hfree

/-- A turn of the encoder runs what the encoder presents. -/
theorem step_encoderTurn {s : State} {rest : List Input} {i : Instr} (hadm : s.cfg.Admitted)
    (hi : s.inputs = .encoderTurn :: rest) (hdec : decode s.cfg (encoderPresent s.cfg s.enc) = .ok i) :
    step s = exec i { s with inputs := rest } :=
  step_runs_head hadm hi (by simp) rfl hdec

/-- A turn of the decoder runs what the decoder presents. -/
theorem step_decoderTurn {s : State} {rest : List Input} {i : Instr} (hadm : s.cfg.Admitted)
    (hi : s.inputs = .decoderTurn :: rest) (hdec : decode s.cfg (decoderPresent s.dec) = .ok i) :
    step s = exec i { s with inputs := rest } :=
  step_runs_head hadm hi (by simp) rfl hdec

/-- Settles O15: each kind of turn runs what it presents; NOP, BIND_SINK and ENC_NOSINK wait for no unit and have no byte-level steps. -/
theorem stepRunsTheDecodedInstruction : Obligations.StepRunsTheDecodedInstruction := by
  intro s rest hadm
  refine ⟨fun w hi henc hdec i h => ?_, fun w hi hw i h => ?_, fun hi i h => step_encoderTurn hadm hi h,
    fun hi i h => step_decoderTurn hadm hi h⟩
  · rw [← EncUnit.busy_iff] at henc
    rw [← DecUnit.busy_iff] at hdec
    exact step_request hadm hi (blockedBy_none s w henc hdec) h
  · have hop : w.op ≠ 2 := by
      obtain h | h | ⟨h, -⟩ := hw <;> rw [h] <;> decide
    have hatOnce : ¬ (w.op = 1 ∧ s.sinkBound = true) ∧ ¬ (w.op = 1 ∧ s.enc.busy = true) := by
      obtain h | h | ⟨-, hb, hp, hst⟩ := hw
      · simp [h]
      · simp [h]
      · simp [EncUnit.busy_iff, hb, hp, hst]
    exact step_serial hadm hi (blockedBy_none s w hatOnce.2 fun h => hop h.1) hatOnce.1 hop h

/-- The three kinds of presentation that the words of the opcode table stand for (log 11). -/
theorem tablePresent_cases {nbits w : Nat} {p : Present} (h : tablePresent nbits w = some p) :
    (∃ lines, p = .port true lines) ∨ (∃ b, p = .decoderByte .escd b) ∨ ∃ b, p = .encoderByte b true := by
  unfold tablePresent at h
  split at h
  · cases h
  · split at h
    · exact .inl ⟨_, (Option.some.inj h).symm⟩
    · split at h
      · exact .inr (.inl ⟨_, (Option.some.inj h).symm⟩)
      · exact .inr (.inr ⟨_, (Option.some.inj h).symm⟩)

/-- The instruction of a table word is decoded under RC from what the word presents. -/
theorem decodeTableWord_eq_some {nbits w : Nat} {i : Instr} (h : decodeTableWord nbits w = some i) :
    ∃ p, tablePresent nbits w = some p ∧ decode Config.rc p = .ok i := by
  unfold decodeTableWord at h
  split at h
  · cases h
  · rename_i p hp
    split at h
    · rename_i j hj
      exact ⟨p, hp, Option.some.inj h ▸ hj⟩
    · cases h

theorem rc_admitted : Config.rc.Admitted := by decide

/-- Only op = 01 looks at SINK_BOUND (R70, R107). -/
theorem decodePort_sinkBound {w : PortWord} (h : w.op ≠ 1) (a b : Bool) : decodePort a w = decodePort b w := by
  simp only [decodePort, if_neg h]

/-- An operation placed on the port waits for no unit, and SINK_BOUND is the one placed if it looks at it. -/
theorem step_placed_port (s : State) (sinkBound : Bool) (w : PortWord) :
    step (s.placed (.port sinkBound w)) =
      exec (decodePort sinkBound w) { s.placed (.port sinkBound w) with inputs := s.inputs } := by
  have henc : ¬ (w.op = 1 ∧ (s.placed (.port sinkBound w)).enc.busy = true) := by
    rintro ⟨hw, hb⟩
    simp [State.placed, hw, EncUnit.idle_busy] at hb
  have hdec : ¬ (w.op = 2 ∧ (s.placed (.port sinkBound w)).dec.busy = true) := by
    rintro ⟨hw, hb⟩
    simp [State.placed, hw, DecUnit.idle_busy] at hb
  have hsink : decodePort (s.placed (.port sinkBound w)).sinkBound w = decodePort sinkBound w := by
    by_cases hw : w.op = 1
    · simp [State.placed, hw]
    · exact decodePort_sinkBound hw _ _
  exact step_request rc_admitted rfl (blockedBy_none _ _ henc hdec) (congrArg Except.ok hsink)

/-- The encoder placed in BODY with the byte b next has room for its unit, and presents b. -/
theorem step_placed_encoderByte (s : State) (b : Byte) :
    step (s.placed (.encoderByte b true)) =
      exec (decodeEncoderByte Config.rc b true) { s.placed (.encoderByte b true) with inputs := s.inputs } := by
  have hfits : 1 + (Config.rc.unit b).length + 1 ≤ Config.rc.frameCap := by
    have hcap : Config.rc.frameCap = 26 := rfl
    rw [Config.unit_length]
    split <;> omega
  have hpresent : encoderPresent Config.rc (s.placed (.encoderByte b true)).enc = .encoderByte b true :=
    congrArg (Present.encoderByte b) (decide_eq_true hfits)
  exact step_encoderTurn rc_admitted rfl (congrArg (decode Config.rc) hpresent)

/-- The decoder placed in a state with the byte b next presents both. -/
theorem step_placed_decoderByte (s : State) (st : DecState) (b : Byte) :
    step (s.placed (.decoderByte st b)) =
      exec (decodeDecoderByte Config.rc st b) { s.placed (.decoderByte st b) with inputs := s.inputs } :=
  step_decoderTurn rc_admitted rfl rfl

/-- Settles O17: each kind of presentation a table word stands for is the one the placed state presents. -/
theorem theTableWordPlacedIsTheOneRun : Obligations.TheTableWordPlacedIsTheOneRun := by
  intro s nbits w i h
  obtain ⟨p, hp, hdec⟩ := decodeTableWord_eq_some h
  have hplaced : s.withFetchWord nbits w = s.placed p := by rw [State.withFetchWord, hp]
  rw [hplaced]
  obtain ⟨lines, rfl⟩ | ⟨b, rfl⟩ | ⟨b, rfl⟩ := tablePresent_cases hp <;> cases hdec
  · exact step_placed_port s true lines
  · exact step_placed_decoderByte s .escd b
  · exact step_placed_encoderByte s b

end Sys2Proof.Machine
end

section
/-! PROOF. How much of a packet EncodeFrame keeps (40_encoder.md R101, R109(b)): while the units of the first bytes fit with the end
marker, the loop appends them. -/

namespace Sys2Proof.Machine

/-- First bytes whose units and end marker fit are appended whole, and the loop goes on after them. -/
theorem encodeBody_append (c : Config) (q r : List Byte) (len : Nat)
    (h : len + (q.flatMap c.unit).length + 1 ≤ c.frameCap) :
    encodeBody c len (q ++ r) = q.flatMap c.unit ++ encodeBody c (len + (q.flatMap c.unit).length) r := by
  induction q generalizing len with
  | nil => rfl
  | cons b q ih =>
    rw [List.flatMap_cons, List.length_append] at h
    have hfits : len + (c.unit b).length + 1 ≤ c.frameCap := by omega
    rw [List.cons_append, encodeBody, if_pos hfits, ih _ (by omega), List.flatMap_cons, List.length_append,
      List.append_assoc, Nat.add_assoc]

/-- More of a packet's first bytes have longer units. -/
theorem units_take_length_lt (c : Config) {p : List Byte} {j j' : Nat} (h : j < j') (hj' : j' ≤ p.length) :
    ((p.take j).flatMap c.unit).length < ((p.take j').flatMap c.unit).length := by
  have hcount : (p.take j).countP (fun b => decide (b ∈ c.reserved)) ≤
      (p.take j').countP (fun b => decide (b ∈ c.reserved)) :=
    (List.take_sublist_take_left (Nat.le_of_lt h)).countP_le
  rw [units_length, units_length, List.length_take_of_le hj', List.length_take_of_le (by omega)]
  omega

/-- Settles O24: first bytes whose units fit are the beginning of the body, so they are no more than the ones kept. -/
theorem encodeFrameKeepsTheGreatestPrefixThatFits : Obligations.EncodeFrameKeepsTheGreatestPrefixThatFits := by
  rintro c p ⟨-, -, -, hk4⟩
  obtain ⟨j, hj, heq, hroom⟩ := encodeBody_eq_units c p 1 hk4
  refine ⟨j, hj, by rw [encodeFrame, heq]; rfl, hroom, fun j' hj' hfits => ?_⟩
  have hbegins : (p.take j').flatMap c.unit <+: (p.take j).flatMap c.unit := by
    rw [← heq, ← List.take_append_drop j' p, encodeBody_append c _ _ 1 hfits, List.take_append_drop]
    exact List.prefix_append _ _
  exact Nat.le_of_not_lt fun hlt => absurd hbegins.length_le (Nat.not_le_of_lt (units_take_length_lt c hlt hj'))

/-- Settles O26: the units of N bytes are at most 2N bytes, so the whole packet is appended. -/
theorem defaultCapacityNeverTruncates : Obligations.DefaultCapacityNeverTruncates := by
  refine ⟨fun S E X K n => rfl, fun c p hcap hp => ?_⟩
  have hcount : p.countP (fun b => decide (b ∈ c.reserved)) ≤ p.length := List.countP_le_length
  have hfits : 1 + (p.flatMap c.unit).length + 1 ≤ c.frameCap := by
    rw [units_length]
    omega
  have hbody := encodeBody_append c p [] 1 hfits
  rw [List.append_nil] at hbody
  rw [encodeFrame, hbody, encodeBody, List.append_nil]
  rfl

end Sys2Proof.Machine
end

section
/-! PROOF. The operation ENCODE at transaction level: the operand check, then SINK_BOUND, then one event (40_encoder.md R100, R107). -/

namespace Sys2Proof.Machine

theorem pktRefused_eq_none {c : Config} {pkt : List Byte} (h : pkt.length = c.packetSize) : pktRefused c pkt = none :=
  if_pos h

theorem pktRefused_eq_some {c : Config} {pkt : List Byte} (h : pkt.length ≠ c.packetSize) :
    pktRefused c pkt = some (.operandRefused .encode pkt.length) :=
  if_neg h

theorem execEncode_refused {s : State} {pkt : List Byte} (h : pkt.length ≠ s.cfg.packetSize) :
    execEncode pkt s = .fault (.operandRefused .encode pkt.length) := by
  rw [execEncode, pktRefused_eq_some h]

theorem execEncode_accepted {s : State} {pkt : List Byte} (h : pkt.length = s.cfg.packetSize) :
    execEncode pkt s = if s.sinkBound then .next (s.emit (encodeFrame s.cfg pkt)) else .next s := by
  rw [execEncode, pktRefused_eq_none h]

theorem execEncode_bound {s : State} {pkt : List Byte} (h : pkt.length = s.cfg.packetSize) (hs : s.sinkBound = true) :
    execEncode pkt s = .next (s.emit (encodeFrame s.cfg pkt)) := by
  rw [execEncode_accepted h, if_pos hs]

theorem execEncode_unbound {s : State} {pkt : List Byte} (h : pkt.length = s.cfg.packetSize)
    (hs : s.sinkBound = false) : execEncode pkt s = .next s := by
  rw [execEncode_accepted h, hs, if_neg Bool.false_ne_true]

/-- Settles O21: the operand check, then SINK_BOUND, then the event. -/
theorem encodeHandsOneFrameToTheSink : Obligations.EncodeHandsOneFrameToTheSink :=
  fun _ _ => ⟨execEncode_refused, execEncode_unbound, execEncode_bound⟩

/-- Settles O22: ENC_NOSINK makes ENCODE's operand check, and then nothing. -/
theorem encodeWithoutSinkDoesNothing : Obligations.EncodeWithoutSinkDoesNothing := by
  intro s pkt hs
  refine ⟨fun h => ⟨?_, execEncode_unbound h hs⟩, fun h => ?_⟩ <;> rw [exec, execEncNosink]
  · rw [pktRefused_eq_none h]
  · rw [pktRefused_eq_some h]

end Sys2Proof.Machine
end

section
/-! PROOF. The byte-level steps of the encoder in an ENCODE (40_encoder.md R102 to R106): what each writes when it is taken, and when it
is not taken. -/

namespace Sys2Proof.Machine

theorem State.EncoderAt.sees {s : State} {p : List Byte} {b : Byte} (h : s.EncoderAt p b) : s.enc.sees s.cfg b := by
  obtain ⟨hst, htr, hp, hi, hb⟩ := h
  exact ⟨hst, htr, (s.enc.cur_eq s.cfg b).mpr ⟨hi, p, hp, hb⟩⟩

/-- A unit sees one byte at a time. -/
theorem EncUnit.sees_unique {c : Config} {u : EncUnit} {a b : Byte} (ha : u.sees c a) (hb : u.sees c b) : a = b :=
  Option.some.inj (ha.2.2.symm.trans hb.2.2)

/-- The row of ENC_ESCAPE for a reserved byte is R104 for that byte. -/
theorem exec_escapeRow {s : State} {b : Byte} {i : Instr}
    (h : (i = .encEscapeS ∧ b = s.cfg.startByte) ∨ (i = .encEscapeE ∧ b = s.cfg.endByte) ∨
      (i = .encEscapeX ∧ b = s.cfg.escByte)) : exec i s = encEscape b s := by
  obtain ⟨rfl, rfl⟩ | ⟨rfl, rfl⟩ | ⟨rfl, rfl⟩ := h <;> rfl

/-- Outside BODY, after truncation or at the end of the packet no byte is seen. -/
theorem EncUnit.not_sees {c : Config} {u : EncUnit} (h : u.st ≠ .body ∨ u.trunc = true ∨ c.packetSize ≤ u.i) (b : Byte) :
    ¬ u.sees c b := by
  intro hsees
  obtain h | h | h := h
  · exact h hsees.1
  · exact Bool.false_ne_true (hsees.2.1.symm.trans h)
  · exact absurd (EncUnit.sees_pkt hsees).2 (Nat.not_lt_of_le h)

/-- With no packet byte seen no packet-byte step is taken (R103 to R105). -/
theorem packetByteSteps_notTaken {s : State} (h : ∀ b, ¬ s.enc.sees s.cfg b) :
    (∀ b, exec (.encPlain b) s = .next s) ∧ exec .encEscapeS s = .next s ∧ exec .encEscapeE s = .next s ∧
    exec .encEscapeX s = .next s ∧ exec .encDrop s = .next s := by
  have escape (b : Byte) : encEscape b s = .next s := encEscape_notTaken b s fun hg => h b hg.1
  exact ⟨fun b => execEncPlain_notTaken b s fun hg => h b hg.1, escape _, escape _, escape _,
    execEncDrop_notTaken s fun b hb => absurd hb (h b)⟩

/-- Settles O28: ENC_START is taken, and writes index 0 only. -/
theorem encStartWritesTheStartMarker : Obligations.EncStartWritesTheStartMarker := by
  intro s p hst hp hcap
  refine ⟨s.enc.buf.write 0 s.cfg.startByte, ?_, Memory.read_write_same _ _ _,
    fun a ha => Memory.read_write_other _ 0 a _ ha⟩
  rw [← hp]
  exact execEncStart_taken s hst (hp ▸ nofun) hcap

/-- Settles O29: ENC_PLAIN appends the one byte b exactly when its guard holds. -/
theorem encPlainCopiesThePacketByte : Obligations.EncPlainCopiesThePacketByte := by
  intro s p b hat
  constructor
  · rintro ⟨hS, hE, hX, hroom⟩
    have hplain : b ∉ s.cfg.reserved := by simp [Config.mem_reserved, hS, hE, hX]
    obtain ⟨m, hexec, hm⟩ := execEncPlain_taken b s ⟨hat.sees, hplain, hroom⟩
    refine ⟨m, hexec, hm.here 0 b rfl, fun a ha => hm.other a ?_⟩
    rw [List.length_singleton]
    omega
  · intro h
    refine execEncPlain_notTaken b s fun ⟨_, hplain, hroom⟩ => ?_
    obtain h | h | h | h := h
    · exact hplain ((s.cfg.mem_reserved b).mpr (.inl h))
    · exact hplain ((s.cfg.mem_reserved b).mpr (.inr (.inl h)))
    · exact hplain ((s.cfg.mem_reserved b).mpr (.inr (.inr h)))
    · exact Nat.not_le_of_lt h hroom

/-- Settles O30: each row of ENC_ESCAPE appends the pair of its byte exactly when there is room. -/
theorem encEscapeWritesThePair : Obligations.EncEscapeWritesThePair := by
  intro s p b i hat hrow
  have hres : b ∈ s.cfg.reserved := by
    rw [Config.mem_reserved]
    exact hrow.imp And.right (.imp And.right And.right)
  rw [exec_escapeRow hrow]
  refine ⟨fun hroom => ?_, fun hfull => encEscape_notTaken b s fun hg => Nat.not_le_of_lt hfull hg.2.2⟩
  obtain ⟨m, hexec, hm⟩ := encEscape_taken b s ⟨hat.sees, hres, hroom⟩
  refine ⟨m, hexec, hm.here 0 _ rfl, hm.here 1 _ rfl, fun a h0 h1 => hm.other a ?_⟩
  simp only [List.length_cons, List.length_nil]
  omega

/-- Settles O31: ENC_DROP is taken exactly when the unit does not fit, and after it no packet byte is seen. -/
theorem encDropTruncates : Obligations.EncDropTruncates := by
  intro s p b hat
  constructor
  · intro hfull
    obtain ⟨hplain, hS, hE, hX, -⟩ := packetByteSteps_notTaken (s := { s with enc := { s.enc with trunc := true } })
      (EncUnit.not_sees (.inr (.inl rfl)))
    exact ⟨_, execEncDrop_taken s b hat.sees (Nat.not_le_of_lt hfull), rfl, hplain, hS, hE, hX⟩
  · intro hfits
    exact execEncDrop_notTaken s fun b' hb' => EncUnit.sees_unique hat.sees hb' ▸ hfits

/-- A written byte of a slice stands at its index. -/
theorem Memory.getElem?_slice {m : Memory} {n a : Nat} {b : Byte} (ha : a < n) (h : m.read a = some b) :
    (m.slice n)[a]? = some b := by
  simp [Memory.slice, ha, h]

/-- In BODY the unit presents ENC_FINISH exactly when the packet is at its end or truncated (R106). -/
theorem encoderPresent_finish_iff {c : Config} {u : EncUnit} (hst : u.st = .body) :
    encoderPresent c u = .encoderFinish ↔ u.i = c.packetSize ∨ u.trunc = true := by
  simp only [encoderPresent, hst]
  split
  case isTrue h => exact iff_of_true rfl h
  case isFalse h =>
    refine iff_of_false ?_ h
    split <;> exact nofun

/-- Settles O32: ENC_FINISH is taken, and its frame is enc_buf[0..enc_len) with E after it. -/
theorem encFinishEmitsTheBalancedFrame : Obligations.EncFinishEmitsTheBalancedFrame := by
  intro s hst
  refine ⟨fun hend hroom => ?_, encoderPresent_finish_iff hst⟩
  have hlen : (s.enc.buf.slice s.enc.len).length = s.enc.len := Memory.slice_length _ _
  refine ⟨_, _, execEncFinish_taken s hst hend hroom, rfl, rfl, ?_, ?_, fun a b ha hb => ?_⟩
  · rw [List.length_append, hlen, List.length_singleton]
  · rw [List.getElem?_append_right (Nat.le_of_eq hlen), hlen, Nat.sub_self]
    rfl
  · rw [List.getElem?_append_left (hlen.symm ▸ ha)]
    exact Memory.getElem?_slice ha hb

end Sys2Proof.Machine
end

section
/-! PROOF. A turn of the encoder unit, by what it presents: ENC_START, one pass of EncodeFrame's loop, or ENC_FINISH (40_encoder.md R101
to R106). -/

namespace Sys2Proof.Machine

theorem encoderPresent_start {c : Config} {u : EncUnit} {p : List Byte} (hst : u.st = .idle) (hp : u.pkt = some p) :
    encoderPresent c u = .encoderStart := by
  rw [encoderPresent, hst]
  exact if_pos (hp ▸ rfl)

/-- A byte seen is presented, with whether its unit fits. -/
theorem encoderPresent_byte {c : Config} {u : EncUnit} {b : Byte} (h : u.sees c b) :
    encoderPresent c u = .encoderByte b (decide (u.fits c b)) := by
  have hgoing : ¬ (u.i = c.packetSize ∨ u.trunc = true) := by
    simp [h.2.1, Nat.ne_of_lt (EncUnit.sees_pkt h).2]
  simp only [encoderPresent, h.1, if_neg hgoing, h.2.2]

/-- The row selected for a byte whose unit fits appends the unit (R103, R104). -/
theorem exec_fittingRow {s : State} {b : Byte} (h : s.enc.sees s.cfg b) (hf : s.enc.fits s.cfg b) :
    ∃ m, exec (decodeEncoderByte s.cfg b true) s = .next { s with
        enc := { s.enc with buf := m, len := s.enc.len + (s.cfg.unit b).length, i := s.enc.i + 1 } } ∧
      Appended s.enc.buf m s.enc.len (s.cfg.unit b) := by
  by_cases hb : b ∈ s.cfg.reserved
  · have hrow : exec (decodeEncoderByte s.cfg b true) s = encEscape b s := by
      rw [decodeEncoderByte_fits]
      by_cases hS : b = s.cfg.startByte
      · rw [if_pos hS]
        exact exec_escapeRow (.inl ⟨rfl, hS⟩)
      rw [if_neg hS]
      by_cases hE : b = s.cfg.endByte
      · rw [if_pos hE]
        exact exec_escapeRow (.inr (.inl ⟨rfl, hE⟩))
      have hX : b = s.cfg.escByte := (((s.cfg.mem_reserved b).mp hb).resolve_left hS).resolve_left hE
      rw [if_neg hE, if_pos hX]
      exact exec_escapeRow (.inr (.inr ⟨rfl, hX⟩))
    rw [EncUnit.fits, s.cfg.unit_reserved hb] at hf
    rw [hrow, s.cfg.unit_reserved hb]
    exact encEscape_taken b s ⟨h, hb, hf⟩
  · rw [EncUnit.fits, s.cfg.unit_plain hb] at hf
    rw [decodeEncoderByte_plain hb, s.cfg.unit_plain hb]
    exact execEncPlain_taken b s ⟨h, hb, hf⟩

theorem encoderTurn_start {s : State} {p : List Byte} (hst : s.enc.st = .idle) (hp : s.enc.pkt = some p) :
    perform .encoderTurn s = execEncStart s :=
  run_decoded (congrArg (decode s.cfg) (encoderPresent_start hst hp))

/-- A byte whose unit fits: the unit is appended and enc_i advances. -/
theorem encoderTurn_append {s : State} {b : Byte} (h : s.enc.sees s.cfg b) (hf : s.enc.fits s.cfg b) :
    ∃ m, perform .encoderTurn s = .next { s with
        enc := { s.enc with buf := m, len := s.enc.len + (s.cfg.unit b).length, i := s.enc.i + 1 } } ∧
      Appended s.enc.buf m s.enc.len (s.cfg.unit b) := by
  have hpresent := encoderPresent_byte h
  rw [decide_eq_true hf] at hpresent
  have hturn : perform .encoderTurn s = exec (decodeEncoderByte s.cfg b true) s :=
    run_decoded (congrArg (decode s.cfg) hpresent)
  rw [hturn]
  exact exec_fittingRow h hf

/-- A byte whose unit does not fit: ENC_DROP. -/
theorem encoderTurn_drop {s : State} {b : Byte} (h : s.enc.sees s.cfg b) (hf : ¬ s.enc.fits s.cfg b) :
    perform .encoderTurn s = .next { s with enc := { s.enc with trunc := true } } := by
  have hpresent := encoderPresent_byte h
  rw [decide_eq_false hf] at hpresent
  exact (run_decoded (congrArg (decode s.cfg) hpresent)).trans (execEncDrop_taken s b h hf)

theorem encoderTurn_finish {s : State} (hst : s.enc.st = .body)
    (hend : s.enc.i = s.cfg.packetSize ∨ s.enc.trunc = true) : perform .encoderTurn s = execEncFinish s :=
  run_decoded (congrArg (decode s.cfg) ((encoderPresent_finish_iff hst).mpr hend))

/-- Settles O33: the turn is at the head of the inputs, and the unit sees the byte b. -/
theorem encoderTurnIsOnePassOfTheLoop : Obligations.EncoderTurnIsOnePassOfTheLoop := by
  intro s p b rest hadm hat hi
  have hstep : step s = perform .encoderTurn { s with inputs := rest } := by
    rw [step_admitted s hadm, schedule_head s _ rest hi (by simp)]
  rw [hstep]
  refine ⟨fun hfits => ?_, fun hfull =>
    encoderTurn_drop (s := { s with inputs := rest }) hat.sees (Nat.not_le_of_lt hfull)⟩
  obtain ⟨m, hturn, hm⟩ := encoderTurn_append (s := { s with inputs := rest }) hat.sees hfits
  exact ⟨m, hturn, hm.slice⟩

end Sys2Proof.Machine
end

section
/-! PROOF. A byte-serial ENCODE worked to its end is the atomic one (00_scope.md R3, 40_encoder.md R101 to R106): the turns of a block with
no input are followed over the packet bytes that remain. -/

namespace Sys2Proof.Machine

theorem run_succ_of_step (M : Host.Core) {s t : M.State} (h : M.step s = .next t) (k : Nat) :
    M.run (k + 1) s = M.run k t := by
  rw [Host.Core.run, h]

theorem core_run_succ {s t : State} (h : step s = .next t) (k : Nat) :
    Sys2Proof.core.run (k + 1) s = Sys2Proof.core.run k t :=
  run_succ_of_step Sys2Proof.core h k

/-- With no input a busy encoder takes the turn (log 3). -/
theorem step_encoderAlone {s : State} (hadm : s.cfg.Admitted) (hi : s.inputs = []) (hb : s.enc.busy = true) :
    step s = perform .encoderTurn s := by
  rw [step_admitted s hadm, schedule, hi]
  simp only [hb, if_true]

/-- The ENCODE in progress has ended with the frame f. -/
def State.endEncode (s : State) (f : List Byte) : State := ({ s with enc := EncUnit.idle } : State).emit f

/-- The encoder is in BODY in an admitted block with no input, and q is what remains of its packet. -/
structure State.EncodingAlone (s : State) (q : List Byte) : Prop where
  admitted : s.cfg.Admitted
  noInput : s.inputs = []
  body : s.enc.st = .body
  untruncated : s.enc.trunc = false
  operand : ∃ taken, s.enc.pkt = some (taken ++ q) ∧ taken.length = s.enc.i ∧ s.enc.i + q.length = s.cfg.packetSize
  room : s.enc.len + 1 ≤ s.cfg.frameCap

theorem EncUnit.busy_of_body {u : EncUnit} (h : u.st = .body) : u.busy = true :=
  u.busy_iff.mpr (.inr (h ▸ nofun))

/-- The last step of an ENCODE (R106). -/
theorem step_encFinish {s : State} (hadm : s.cfg.Admitted) (hi : s.inputs = []) (hst : s.enc.st = .body)
    (hend : s.enc.i = s.cfg.packetSize ∨ s.enc.trunc = true) (hroom : s.enc.len + 1 ≤ s.cfg.frameCap) :
    step s = .next (s.endEncode (s.enc.buf.slice s.enc.len ++ [s.cfg.endByte])) := by
  rw [step_encoderAlone hadm hi (EncUnit.busy_of_body hst), encoderTurn_finish hst hend,
    execEncFinish_taken s hst hend hroom, State.endEncode, State.emit, List.length_append, Memory.slice_length]
  rfl

theorem State.EncodingAlone.sees {s : State} {b : Byte} {q : List Byte} (h : s.EncodingAlone (b :: q)) :
    s.enc.sees s.cfg b := by
  obtain ⟨taken, hp, hi, hN⟩ := h.operand
  have hlt : s.enc.i < s.cfg.packetSize := by
    rw [List.length_cons] at hN
    omega
  exact ⟨h.body, h.untruncated, (s.enc.cur_eq s.cfg b).mpr ⟨hlt, _, hp, by simp [← hi]⟩⟩

/-- One pass of the loop takes the next byte with it. -/
theorem State.EncodingAlone.append {s : State} {b : Byte} {q : List Byte} (h : s.EncodingAlone (b :: q))
    (hf : s.enc.fits s.cfg b) (m : Memory) :
    State.EncodingAlone { s with
      enc := { s.enc with buf := m, len := s.enc.len + (s.cfg.unit b).length, i := s.enc.i + 1 } } q := by
  obtain ⟨taken, hp, hi, hN⟩ := h.operand
  rw [List.length_cons] at hN
  refine { h with operand := ⟨taken ++ [b], ?_, ?_, ?_⟩, room := hf }
  · rw [List.append_assoc]
    exact hp
  · rw [List.length_append, hi, List.length_singleton]
  · show s.enc.i + 1 + q.length = s.cfg.packetSize
    omega

/-- From BODY the ENCODE ends in at most one step for each remaining byte and one more, with the frame that EncodeFrame's loop gives. -/
theorem run_encodingAlone {q : List Byte} {s : State} (h : s.EncodingAlone q) :
    ∃ k, k ≤ q.length + 1 ∧ Sys2Proof.core.run k s =
      .next (s.endEncode (s.enc.buf.slice s.enc.len ++ encodeBody s.cfg s.enc.len q ++ [s.cfg.endByte])) := by
  induction q generalizing s with
  | nil =>
    obtain ⟨taken, -, -, hN⟩ := h.operand
    refine ⟨1, Nat.le_refl 1, ?_⟩
    rw [core_run_succ (step_encFinish h.admitted h.noInput h.body (.inl hN) h.room), encodeBody, List.append_nil]
    rfl
  | cons b q ih =>
    have hturn := step_encoderAlone h.admitted h.noInput (EncUnit.busy_of_body h.body)
    by_cases hf : s.enc.fits s.cfg b
    · obtain ⟨m, happend, hm⟩ := encoderTurn_append h.sees hf
      obtain ⟨k, hk, hrun⟩ := ih (h.append hf m)
      refine ⟨k + 1, Nat.succ_le_succ hk, ?_⟩
      rw [core_run_succ (hturn.trans happend), hrun, encodeBody, if_pos hf, ← List.append_assoc, ← hm.slice]
      rfl
    · have hdrop := hturn.trans (encoderTurn_drop h.sees hf)
      have hfinish := step_encFinish (s := { s with enc := { s.enc with trunc := true } }) h.admitted h.noInput h.body
        (.inr rfl) h.room
      refine ⟨2, by simp, ?_⟩
      rw [core_run_succ hdrop 1, core_run_succ hfinish 0, encodeBody, if_neg hf, List.append_nil]
      rfl

/-- A byte-serial ENCODE that finds a sink and an encoder at rest is taken in (log 10). -/
theorem step_beginEncode {s : State} {w : PortWord} {rest : List Input} (hadm : s.cfg.Admitted)
    (hi : s.inputs = .serial w :: rest) (hw : w.op = 1) (hfree : blockedBy s w = none) (hs : s.sinkBound = true)
    (hl : w.data.length = s.cfg.packetSize) :
    step s = .next { s with inputs := rest, enc := { EncUnit.idle with pkt := some w.data } } := by
  have hhead : schedule s = (.serial w, { s with inputs := rest }) := by
    refine schedule_head s _ rest hi ?_
    rintro w' (h | h) <;> cases h
    exact hfree
  rw [step_admitted s hadm, hhead]
  show serialOp w { s with inputs := rest } = _
  rw [serialOp, if_pos ⟨hw, hs⟩, Machine.beginEncode, pktRefused_eq_none hl]

/-- From the operand taken in, ENC_START, the packet bytes and ENC_FINISH give EncodeFrame. -/
theorem run_accepted {s : State} {pkt : List Byte} (hadm : s.cfg.Admitted) (hi : s.inputs = [])
    (henc : s.enc = { EncUnit.idle with pkt := some pkt }) (hl : pkt.length = s.cfg.packetSize) :
    ∃ k, k ≤ s.cfg.packetSize + 2 ∧ Sys2Proof.core.run k s = .next (s.endEncode (encodeFrame s.cfg pkt)) := by
  have hst : s.enc.st = .idle := henc ▸ rfl
  have hp : s.enc.pkt = some pkt := henc ▸ rfl
  have hbuf : s.enc.buf = [] := henc ▸ rfl
  have hcap : 2 ≤ s.cfg.frameCap := hadm.2.2.2
  have hstart := (step_encoderAlone hadm hi (s.enc.busy_iff.mpr (.inl (hp ▸ nofun)))).trans
    ((encoderTurn_start hst hp).trans (execEncStart_taken s hst (hp ▸ nofun) (Nat.le_of_succ_le hcap)))
  have halone : State.EncodingAlone { s with enc := { s.enc with
      st := .body, buf := s.enc.buf.write 0 s.cfg.startByte, len := 1, i := 0, trunc := false } } pkt :=
    ⟨hadm, hi, rfl, rfl, ⟨[], hp, rfl, (Nat.zero_add _).trans hl⟩, hcap⟩
  obtain ⟨k, hk, hrun⟩ := run_encodingAlone halone
  refine ⟨k + 1, by omega, ?_⟩
  rw [core_run_succ hstart, hrun, hbuf, Memory.slice_write_next]
  rfl

/-- Settles O34: the operand is taken in, the unit works alone to the end of its frame, and rests as before. -/
theorem byteSerialEncodeIsEncode : Obligations.ByteSerialEncodeIsEncode := by
  intro s v pkt hadm hinv hp hs hl hi
  have hrest : s.enc = EncUnit.idle := hinv.enc.atRest hp
  have hfree (t : State) (ht : t.enc = EncUnit.idle) : blockedBy t { op := 1, v := v, data := pkt } = none :=
    blockedBy_none t _ (by simp [ht, EncUnit.idle_busy]) (by simp)
  have hatomic : Sys2Proof.core.run 1 { s with inputs := [.request { op := 1, v := v, data := pkt }] } =
      .next (({ s with inputs := [] } : State).emit (encodeFrame s.cfg pkt)) := by
    have hdec : decode s.cfg (.port s.sinkBound { op := 1, v := v, data := pkt }) = .ok (.encode pkt) := by
      rw [hs]
      rfl
    have hstep := step_request (s := { s with inputs := [.request { op := 1, v := v, data := pkt }] }) hadm rfl
      (hfree _ hrest) hdec
    exact core_run_succ (hstep.trans (execEncode_bound hl hs)) 0
  obtain ⟨k, hk, hrun⟩ := run_accepted (s := { s with inputs := [], enc := { EncUnit.idle with pkt := some pkt } })
    hadm rfl rfl hl
  have hserial : Sys2Proof.core.run (k + 1) s =
      .next (({ s with inputs := [] } : State).emit (encodeFrame s.cfg pkt)) := by
    rw [core_run_succ (step_beginEncode hadm hi rfl (hfree s hrest) hs hl), hrun, State.endEncode, ← hrest]
  exact ⟨k + 1, Nat.succ_le_succ hk, hserial.trans hatomic.symm, hserial⟩

end Sys2Proof.Machine
end

section
/-! PROOF. A byte-level step that its unit's state, byte or guard does not select is not taken (40_encoder.md R102 to R106, 41_decoder.md
R133, 30_encoding.md R63; log 9). -/

namespace Sys2Proof.Machine

/-- With no byte next in the decoder no step but DEC_EXHAUST is taken. -/
theorem exec_decoderRow_noByte {i : Instr} {s : State} (hi : i.isDecoderRow = true) (hport : ∀ buf, i ≠ .decode buf)
    (hend : i ≠ .decExhaust) (hcur : s.dec.cur = none) : exec i s = .next s := by
  have unseen (st : DecState) (b : Byte) : ¬ s.dec.sees st b := fun h => nomatch hcur.symm.trans h.2
  cases i with
  | decode buf => exact absurd rfl (hport buf)
  | decExhaust => exact absurd rfl hend
  | decScanStart | decBodyEsc | decBodyEnd | decEscS | decEscE | decEscX | decEscEnd | decDrainEnd =>
    exact if_neg (unseen _ _)
  | decScanSkip | decBodyData | decEscBad | decDrainSkip => exact if_neg fun h => unseen _ _ h.1
  | _ => cases hi

theorem execDecExhaust_idle {s : State} (h : s.dec.buf = none) : execDecExhaust s = .next s := by
  rw [execDecExhaust, h]

/-- Before the end of the buffer DEC_EXHAUST is not taken (R144). -/
theorem execDecExhaust_notTaken {s : State} {buf : List Byte} (h : s.dec.buf = some buf) (hp : s.dec.pos < buf.length) :
    execDecExhaust s = .next s := by
  rw [execDecExhaust, h]
  exact if_neg (Nat.not_le_of_lt hp)

/-- The decoder at a byte sees that byte in its own state and nothing else. -/
theorem State.DecoderAt.sees_iff {s : State} {st st' : DecState} {buf : List Byte} {b b' : Byte}
    (h : s.DecoderAt st buf b) : s.dec.sees st' b' ↔ st = st' ∧ b = b' := by
  obtain ⟨hst, hbuf, hb⟩ := h
  have hcur : s.dec.cur = some b := (s.dec.cur_eq b).mpr ⟨buf, hbuf, hb⟩
  rw [DecUnit.sees, hst, hcur, Option.some.injEq]

theorem State.DecoderAt.not_sees {s : State} {st st' : DecState} {buf : List Byte} {b b' : Byte}
    (h : s.DecoderAt st buf b) (hne : st ≠ st' ∨ b ≠ b') : ¬ s.dec.sees st' b' := by
  rw [h.sees_iff]
  rintro ⟨hst, hb⟩
  exact hne.elim (fun hne => hne hst) fun hne => hne hb

/-- A step that sees b' and asks P of it is not taken in another state, at another byte, or under a condition that excludes P. -/
theorem State.DecoderAt.not_sees_and {s : State} {st st' : DecState} {buf : List Byte} {b b' : Byte} {P Q : Prop}
    (h : s.DecoderAt st buf b) (hQ : Q → ¬ P) (hne : st ≠ st' ∨ b' ≠ b ∨ Q) : ¬ (s.dec.sees st' b' ∧ P) := by
  rw [h.sees_iff]
  rintro ⟨⟨hst, hb⟩, hP⟩
  obtain hne | hne | hq := hne
  · exact hne hst
  · exact hne hb.symm
  · exact hQ hq hP

/-- With no ENCODE in progress and the unit in IDLE no byte-level step of the encoder is taken. -/
theorem exec_encoderRow_idle {i : Instr} {s : State} (hi : i.isEncoderRow = true)
    (hport : ∀ p, i ≠ .encode p ∧ i ≠ .encNosink p) (hp : s.enc.pkt = none) (hst : s.enc.st = .idle) :
    exec i s = .next s := by
  have hbody : s.enc.st ≠ .body := hst ▸ nofun
  obtain ⟨hplain, hS, hE, hX, hdrop⟩ := packetByteSteps_notTaken (EncUnit.not_sees (c := s.cfg) (.inl hbody))
  cases i with
  | encode p => exact absurd rfl (hport p).1
  | encNosink p => exact absurd rfl (hport p).2
  | encStart => exact execEncStart_notTaken s (.inr hp)
  | encPlain b => exact hplain b
  | encEscapeS => exact hS
  | encEscapeE => exact hE
  | encEscapeX => exact hX
  | encDrop => exact hdrop
  | encFinish => exact execEncFinish_notTaken s fun h => hbody h.1
  | _ => cases hi

/-- Settles O46: a step that is not selected finds its guard false. -/
theorem stepsThatAreNotSelectedDoNothing : Obligations.StepsThatAreNotSelectedDoNothing := by
  intro s S E X K
  refine ⟨fun i hbuf hi hport => ?_, fun i hp hst hi hport => exec_encoderRow_idle hi hport hp hst,
    fun st buf b hat => ?_, fun i buf hbuf hpos hi hport hend => ?_, fun p b hat => ?_,
    execEncStart_notTaken s, fun h => execEncFinish_notTaken s ?_,
    fun h => packetByteSteps_notTaken (EncUnit.not_sees h)⟩
  · by_cases hend : i = .decExhaust
    · exact hend ▸ execDecExhaust_idle hbuf
    · exact exec_decoderRow_noByte hi hport hend (by rw [DecUnit.cur, hbuf]; rfl)
  · have hlt : s.dec.pos < buf.length := (List.getElem?_eq_some_iff.mp hat.2.2).1
    exact ⟨fun h => if_neg (hat.not_sees h), fun _ h => if_neg (hat.not_sees_and not_not_intro h),
      fun h => if_neg (hat.not_sees h), fun h => if_neg (hat.not_sees h),
      fun _ h => if_neg (hat.not_sees_and (fun hq hP => hq.elim hP.1 hP.2) h),
      fun h => if_neg (hat.not_sees h), fun h => if_neg (hat.not_sees h), fun h => if_neg (hat.not_sees h),
      fun h => if_neg (hat.not_sees h), fun _ h => if_neg (hat.not_sees_and (fun hq hP => hq.elim hP.1 hP.2) h),
      fun h => if_neg (hat.not_sees h), fun _ h => if_neg (hat.not_sees_and not_not_intro h),
      execDecExhaust_notTaken hat.2.1 hlt⟩
  · exact exec_decoderRow_noByte hi hport hend (by simp [DecUnit.cur, hbuf, hpos])
  · have unseen {b' : Byte} (hne : b ≠ b') : ¬ s.enc.sees s.cfg b' := fun h => hne (EncUnit.sees_unique hat.sees h)
    have escape {b' : Byte} (hne : b ≠ b') : encEscape b' s = .next s := encEscape_notTaken b' s fun h => unseen hne h.1
    exact ⟨fun b' hne => execEncPlain_notTaken b' s fun h => unseen (Ne.symm hne) h.1, escape, escape, escape⟩
  · rintro ⟨hst, hend⟩
    obtain h | ⟨hi, htr⟩ := h
    · exact h hst
    · exact hend.elim hi fun h => Bool.false_ne_true (htr.symm.trans h)

end Sys2Proof.Machine
end

section
/-! PROOF. One pass of the DECODE loop in each state, as a chain of tests on the byte (41_decoder.md R134 to R143), and what the loop
makes of it: it goes on with the new working values, or ends. -/

namespace Sys2Proof.Machine

/-- The working values with n more bytes counted (R133). -/
def ParseState.counted (q : ParseState) (n : Nat) : ParseState := { q with pos := q.pos + n }

@[simp] theorem ParseState.counted_st (q : ParseState) (n : Nat) : (q.counted n).st = q.st := rfl
@[simp] theorem ParseState.counted_stored (q : ParseState) (n : Nat) : (q.counted n).stored = q.stored := rfl
@[simp] theorem ParseState.counted_ovf (q : ParseState) (n : Nat) : (q.counted n).ovf = q.ovf := rfl
@[simp] theorem ParseState.counted_pos (q : ParseState) (n : Nat) : (q.counted n).pos = q.pos + n := rfl

@[simp] theorem ParseState.counted_counted (q : ParseState) (m n : Nat) : (q.counted m).counted n = q.counted (m + n) := by
  simp [ParseState.counted, Nat.add_assoc]

@[simp] theorem ParseState.store_st (c : Config) (q : ParseState) (v : Byte) : (q.store c v).st = q.st :=
  (ParseState.store_fields c q v).1

@[simp] theorem ParseState.store_pos (c : Config) (q : ParseState) (v : Byte) : (q.store c v).pos = q.pos :=
  (ParseState.store_fields c q v).2

/-- R134 and R135. -/
theorem parseByte_scan (c : Config) {q : ParseState} (hst : q.st = .scan) (b : Byte) :
    parseByte c q b = .inl (if b = c.startByte then { q with st := .body } else q) := by
  by_cases hS : b = c.startByte
  · have hcl : c.decClass b = .markS := if_pos hS
    simp only [parseByte, hst, hcl, if_pos hS]
  · have hcl : c.decClass b ≠ .markS := mt (c.decClass_spec b).1 hS
    rw [if_neg hS]
    cases h : c.decClass b with
    | markS => exact absurd h hcl
    | _ => simp only [parseByte, hst, h]

/-- R136 to R138. -/
theorem parseByte_body {c : Config} (hc : c.Admitted) {q : ParseState} (hst : q.st = .body) (b : Byte) :
    parseByte c q b =
      if b = c.escByte then .inl { q with st := .escd } else if b = c.endByte then .inr (q.finish c)
      else .inl (q.store c b) := by
  obtain ⟨-, hclE, hclX, -⟩ := hc.decClass_special
  by_cases hX : b = c.escByte
  · rw [if_pos hX, hX]
    simp only [parseByte, hst, hclX]
  rw [if_neg hX]
  by_cases hE : b = c.endByte
  · rw [if_pos hE, hE]
    simp only [parseByte, hst, hclE]
  rw [if_neg hE]
  obtain ⟨-, isE, isX, -⟩ := c.decClass_spec b
  cases h : c.decClass b with
  | markE => exact absurd (isE h) hE
  | markX => exact absurd (isX h) hX
  | _ => simp only [parseByte, hst, h]

/-- R139 to R141. -/
theorem parseByte_escd {c : Config} (hc : c.Admitted) {q : ParseState} (hst : q.st = .escd) (b : Byte) :
    parseByte c q b =
      if b ∈ c.escaped then .inl { q.store c (c.unesc b) with st := .body }
      else if b = c.endByte ∧ c.escEndPolicy = .terminate then .inr (Result.invalid q.pos)
      else .inl { q with st := .drain } := by
  obtain ⟨-, hclE, -, hclS', hclE', hclX'⟩ := hc.decClass_special
  by_cases hq : b ∈ c.escaped
  · rw [if_pos hq]
    obtain rfl | rfl | rfl := (c.mem_escaped b).mp hq
    · simp only [parseByte, hst, hclS']
    · simp only [parseByte, hst, hclE']
    · simp only [parseByte, hst, hclX']
  rw [if_neg hq]
  by_cases hE : b = c.endByte
  · rw [hE]
    cases hp : c.escEndPolicy <;> simp [parseByte, hst, hclE, hp]
  rw [if_neg fun h => hE h.1]
  rw [Config.mem_escaped, not_or, not_or] at hq
  obtain ⟨-, isE, -, isS', isE', isX', -⟩ := c.decClass_spec b
  cases h : c.decClass b with
  | markE => exact absurd (isE h) hE
  | escS => exact absurd (isS' h) hq.1
  | escE => exact absurd (isE' h) hq.2.1
  | escX => exact absurd (isX' h) hq.2.2
  | _ => simp only [parseByte, hst, h]

/-- R142 and R143. -/
theorem parseByte_drain {c : Config} (hc : c.Admitted) {q : ParseState} (hst : q.st = .drain) (b : Byte) :
    parseByte c q b = if b = c.endByte then .inr (Result.invalid q.pos) else .inl q := by
  by_cases hE : b = c.endByte
  · rw [if_pos hE, hE]
    simp only [parseByte, hst, hc.decClass_special.2.1]
  rw [if_neg hE]
  obtain ⟨-, isE, -⟩ := c.decClass_spec b
  cases h : c.decClass b with
  | markE => exact absurd (isE h) hE
  | _ => simp only [parseByte, hst, h]

/-- The byte is counted before its pass. -/
theorem parseFrom_goesOn {c : Config} {q q' : ParseState} {b : Byte} (h : parseByte c (q.counted 1) b = .inl q')
    (rest : List Byte) : parseFrom c q (b :: rest) = parseFrom c q' rest := by
  rw [parseFrom]
  change parseByte c { q with pos := q.pos + 1 } b = _ at h
  rw [h]

/-- The bytes after the one that ends the DECODE are not inspected (R147). -/
theorem parseFrom_stops {c : Config} {q : ParseState} {b : Byte} {r : Result}
    (h : parseByte c (q.counted 1) b = .inr r) (rest : List Byte) : parseFrom c q (b :: rest) = r := by
  rw [parseFrom]
  change parseByte c { q with pos := q.pos + 1 } b = _ at h
  rw [h]

end Sys2Proof.Machine
end

section
/-! PROOF. The bounded store of several bytes in turn, and the length check after it (41_decoder.md R145, R146). -/

namespace Sys2Proof.Machine

/-- Store for each byte in turn. -/
def ParseState.storeAll (c : Config) (q : ParseState) (vs : List Byte) : ParseState := vs.foldl (ParseState.store c) q

theorem ParseState.storeAll_cons (c : Config) (q : ParseState) (v : Byte) (vs : List Byte) :
    q.storeAll c (v :: vs) = (q.store c v).storeAll c vs := rfl

@[simp] theorem ParseState.storeAll_st (c : Config) (q : ParseState) (vs : List Byte) : (q.storeAll c vs).st = q.st := by
  induction vs generalizing q with
  | nil => rfl
  | cons v vs ih => rw [ParseState.storeAll_cons, ih, ParseState.store_st]

@[simp] theorem ParseState.storeAll_pos (c : Config) (q : ParseState) (vs : List Byte) :
    (q.storeAll c vs).pos = q.pos := by
  induction vs generalizing q with
  | nil => rfl
  | cons v vs ih => rw [ParseState.storeAll_cons, ih, ParseState.store_pos]

theorem ParseState.store_room {c : Config} {q : ParseState} (h : q.stored.length < c.packetSize) (v : Byte) :
    q.store c v = { q with stored := q.stored ++ [v] } := if_pos h

theorem ParseState.store_full {c : Config} {q : ParseState} (h : c.packetSize ≤ q.stored.length) (v : Byte) :
    q.store c v = { q with ovf := true } := if_neg (Nat.not_lt_of_le h)

/-- Bytes that find room are all stored. -/
theorem ParseState.storeAll_room {c : Config} {q : ParseState} {vs : List Byte}
    (h : q.stored.length + vs.length ≤ c.packetSize) : q.storeAll c vs = { q with stored := q.stored ++ vs } := by
  induction vs generalizing q with
  | nil => rw [List.append_nil]; rfl
  | cons v vs ih =>
    rw [List.length_cons] at h
    rw [ParseState.storeAll_cons, ParseState.store_room (by omega), ih, List.append_assoc]
    · rfl
    · rw [List.length_append, List.length_singleton]
      omega

/-- Once ovf is true it stays true (R145). -/
theorem ParseState.storeAll_of_ovf {c : Config} {q : ParseState} (h : q.ovf = true) (vs : List Byte) :
    (q.storeAll c vs).ovf = true := by
  induction vs generalizing q with
  | nil => exact h
  | cons v vs ih =>
    refine ih ?_
    unfold ParseState.store
    split
    · exact h
    · rfl

/-- More than N bytes in all set ovf. -/
theorem ParseState.storeAll_overflows {c : Config} {q : ParseState} {vs : List Byte}
    (h : c.packetSize < q.stored.length + vs.length) (hne : vs ≠ []) : (q.storeAll c vs).ovf = true := by
  induction vs generalizing q with
  | nil => exact absurd rfl hne
  | cons v vs ih =>
    rw [List.length_cons] at h
    rw [ParseState.storeAll_cons]
    by_cases hroom : q.stored.length < c.packetSize
    · rw [ParseState.store_room hroom]
      refine ih ?_ ?_
      · rw [List.length_append, List.length_singleton]
        omega
      · rintro rfl
        rw [List.length_nil] at h
        omega
    · rw [ParseState.store_full (Nat.le_of_not_lt hroom)]
      exact ParseState.storeAll_of_ovf rfl vs

/-- The length check after an overflow (R146). -/
theorem ParseState.finish_of_ovf {c : Config} {q : ParseState} (h : q.ovf = true) :
    q.finish c = Result.invalid q.pos :=
  if_neg fun hv => Bool.false_ne_true (hv.1.symm.trans h)

/-- Counting and storing do not meet. -/
theorem ParseState.counted_store (c : Config) (q : ParseState) (v : Byte) (n : Nat) :
    (q.store c v).counted n = (q.counted n).store c v := by
  unfold ParseState.store
  exact apply_ite (ParseState.counted · n) _ _ _

end Sys2Proof.Machine
end

section
/-! PROOF. The DECODE loop over the parts of a frame: the garbage before S, the units of a body, the bytes up to E in DRAIN
(41_decoder.md R134 to R143). -/

namespace Sys2Proof.Machine

/-- In SCAN, bytes other than S are counted and discarded (R135). -/
theorem parseFrom_garbage {c : Config} {q : ParseState} {g : List Byte} (hst : q.st = .scan) (hg : c.startByte ∉ g)
    (rest : List Byte) : parseFrom c q (g ++ rest) = parseFrom c (q.counted g.length) rest := by
  induction g generalizing q with
  | nil => rfl
  | cons b g ih =>
    rw [List.mem_cons, not_or] at hg
    have hpass := parseByte_scan c (q := q.counted 1) hst b
    rw [if_neg (Ne.symm hg.1)] at hpass
    rw [List.cons_append, parseFrom_goesOn hpass, ih (q := q.counted 1) hst hg.2, ParseState.counted_counted,
      List.length_cons, Nat.add_comm]

/-- In SCAN, S enters BODY (R134). -/
theorem parseFrom_start (c : Config) {q : ParseState} (hst : q.st = .scan) (rest : List Byte) :
    parseFrom c q (c.startByte :: rest) = parseFrom c { q.counted 1 with st := .body } rest := by
  have hpass := parseByte_scan c (q := q.counted 1) hst c.startByte
  rw [if_pos rfl] at hpass
  exact parseFrom_goesOn hpass rest

section
variable {c : Config} (hc : c.Admitted) {q : ParseState}
include hc

/-- In BODY, a byte other than X and E is stored (R138). -/
theorem parseFrom_verbatim (hst : q.st = .body) {b : Byte} (hX : b ≠ c.escByte) (hE : b ≠ c.endByte)
    (rest : List Byte) : parseFrom c q (b :: rest) = parseFrom c ((q.counted 1).store c b) rest := by
  have hpass := parseByte_body hc (q := q.counted 1) hst b
  rw [if_neg hX, if_neg hE] at hpass
  exact parseFrom_goesOn hpass rest

/-- In BODY, X enters ESCD (R136). -/
theorem parseFrom_escape (hst : q.st = .body) (rest : List Byte) :
    parseFrom c q (c.escByte :: rest) = parseFrom c { q.counted 1 with st := .escd } rest := by
  have hpass := parseByte_body hc (q := q.counted 1) hst c.escByte
  rw [if_pos rfl] at hpass
  exact parseFrom_goesOn hpass rest

/-- In ESCD, a byte that is neither in Q nor E enters DRAIN (R141). -/
theorem parseFrom_violation (hst : q.st = .escd) {v : Byte} (hv : v ∉ c.escaped) (hE : v ≠ c.endByte)
    (rest : List Byte) : parseFrom c q (v :: rest) = parseFrom c { q.counted 1 with st := .drain } rest := by
  have hpass := parseByte_escd hc (q := q.counted 1) hst v
  rw [if_neg hv, if_neg fun h => hE h.1] at hpass
  exact parseFrom_goesOn hpass rest

/-- In BODY, the escape pair of a reserved byte stores that byte (R136, R139). -/
theorem parseFrom_pair (hst : q.st = .body) {b : Byte} (hb : b ∈ c.reserved) (rest : List Byte) :
    parseFrom c q (c.escByte :: c.esc b :: rest) = parseFrom c ((q.counted 2).store c b) rest := by
  have hpass := parseByte_escd hc (q := ParseState.counted { q.counted 1 with st := .escd } 1) rfl (c.esc b)
  rw [if_pos ((c.esc_mem_escaped b).mpr hb), c.unesc_esc] at hpass
  have hback : { ParseState.store c (ParseState.counted { q.counted 1 with st := .escd } 1) b with st := .body } =
      (q.counted 2).store c b := by
    unfold ParseState.store ParseState.counted
    split <;> simp [*]
  rw [parseFrom_escape hc hst, parseFrom_goesOn hpass, hback]

/-- In BODY, the unit of a byte stores that byte. -/
theorem parseFrom_unit (hst : q.st = .body) (b : Byte) (rest : List Byte) :
    parseFrom c q (c.unit b ++ rest) = parseFrom c ((q.counted (c.unit b).length).store c b) rest := by
  by_cases hb : b ∈ c.reserved
  · rw [c.unit_reserved hb]
    exact parseFrom_pair hc hst hb rest
  · rw [c.unit_plain hb]
    rw [Config.mem_reserved, not_or, not_or] at hb
    exact parseFrom_verbatim hc hst hb.2.2 hb.2.1 rest

/-- In BODY, the units of some bytes store those bytes. -/
theorem parseFrom_units (hst : q.st = .body) (vs rest : List Byte) :
    parseFrom c q (vs.flatMap c.unit ++ rest) =
      parseFrom c ((q.counted (vs.flatMap c.unit).length).storeAll c vs) rest := by
  induction vs generalizing q with
  | nil => rfl
  | cons v vs ih =>
    have hbody : ((q.counted (c.unit v).length).store c v).st = .body := by simp [hst]
    rw [List.flatMap_cons, List.append_assoc, parseFrom_unit hc hst, ih hbody, ParseState.counted_store,
      ParseState.counted_counted, List.length_append]
    rfl

/-- In BODY, E ends the DECODE with the length check (R137). -/
theorem parseFrom_end (hst : q.st = .body) (rest : List Byte) :
    parseFrom c q (c.endByte :: rest) = (q.counted 1).finish c := by
  have hpass := parseByte_body hc (q := q.counted 1) hst c.endByte
  rw [if_neg hc.special_ne.2.2.1, if_pos rfl] at hpass
  exact parseFrom_stops hpass rest

/-- In BODY, the units of some bytes and E: those bytes are stored, and the length check follows. -/
theorem parseFrom_body (hst : q.st = .body) (vs rest : List Byte) :
    parseFrom c q (vs.flatMap c.unit ++ c.endByte :: rest) =
      (((q.counted (vs.flatMap c.unit).length).storeAll c vs).counted 1).finish c := by
  have hbody : ((q.counted (vs.flatMap c.unit).length).storeAll c vs).st = .body := by simp [hst]
  rw [parseFrom_units hc hst, parseFrom_end hc hbody]

/-- In DRAIN, everything through the next E is counted, and the DECODE fails there (R142, R143). -/
theorem parseFrom_drain (hst : q.st = .drain) {a : List Byte} (ha : c.endByte ∉ a) (rest : List Byte) :
    parseFrom c q (a ++ c.endByte :: rest) = Result.invalid (q.pos + (a.length + 1)) := by
  induction a generalizing q with
  | nil =>
    have hpass := parseByte_drain hc (q := q.counted 1) hst c.endByte
    rw [if_pos rfl] at hpass
    exact parseFrom_stops hpass rest
  | cons b a ih =>
    rw [List.mem_cons, not_or] at ha
    have hpass := parseByte_drain hc (q := q.counted 1) hst b
    rw [if_neg (Ne.symm ha.1)] at hpass
    rw [List.cons_append, parseFrom_goesOn hpass, ih (q := q.counted 1) hst ha.2, ParseState.counted_pos, List.length_cons]
    congr 1
    omega

/-- The units of at most N bytes between the markers, after garbage with no S: the DECODE ends at E, and is valid exactly with
N bytes. -/
theorem decodeFrame_framed {g vs : List Byte} (hg : c.startByte ∉ g) (hvs : vs.length ≤ c.packetSize) (h : List Byte) :
    decodeFrame c (g ++ ([c.startByte] ++ vs.flatMap c.unit ++ [c.endByte]) ++ h) =
      if vs.length = c.packetSize then
        { valid := true, consumed := g.length + ((vs.flatMap c.unit).length + 2), pkt := some vs }
      else Result.invalid (g.length + ((vs.flatMap c.unit).length + 2)) := by
  have hbuf : g ++ ([c.startByte] ++ vs.flatMap c.unit ++ [c.endByte]) ++ h =
      g ++ c.startByte :: (vs.flatMap c.unit ++ c.endByte :: h) := by simp
  have hroom : ([] : List Byte).length + vs.length ≤ c.packetSize := by simpa using hvs
  have hpos : 0 + g.length + 1 + (vs.flatMap c.unit).length + 1 = g.length + ((vs.flatMap c.unit).length + 2) := by omega
  rw [hbuf, decodeFrame, parseFrom_garbage rfl hg, parseFrom_start c rfl, parseFrom_body hc rfl,
    ParseState.storeAll_room hroom]
  simp only [ParseState.finish, ParseState.initial, ParseState.counted, List.nil_append, true_and, hpos]

end

/-- Settles O51: the frame is not truncated, and the N bytes of its units are the packet. -/
theorem decodeOfAnEncodedPacketIsThePacket : Obligations.DecodeOfAnEncodedPacketIsThePacket := by
  intro c p g h hc hcap hp hg
  rw [defaultCapacityNeverTruncates.2 c p hcap hp, decodeFrame_framed hc hg (Nat.le_of_eq hp), if_pos hp, framed_length]

/-- Settles O52: a truncated frame holds the units of fewer than N bytes. -/
theorem truncatedFramesDoNotDecode : Obligations.TruncatedFramesDoNotDecode := by
  intro c p hc hp htrunc
  obtain ⟨j, hj, heq, -⟩ := encodeFrame_eq_units hc.2.2.2 p
  have hne : (p.take j).length ≠ c.packetSize := by
    rw [List.length_take_of_le hj, ← hp]
    rintro rfl
    exact htrunc (by rw [heq, List.take_length])
  have hle : (p.take j).length ≤ c.packetSize := hp ▸ List.length_take_le' j p
  have hframed := decodeFrame_framed hc (g := []) (by simp) hle []
  rw [if_neg hne, List.nil_append, List.append_nil, ← heq, List.length_nil, Nat.zero_add] at hframed
  rw [hframed, heq, framed_length]
  rfl

end Sys2Proof.Machine
end

section
/-! PROOF. What the loop makes of a buffer's first bytes, whatever they are: the DECODE ends within them, or goes on after them
(41_decoder.md R130, R133). -/

namespace Sys2Proof.Machine

theorem parseByte_ends_consumed {c : Config} {q : ParseState} {b : Byte} {r : Result} (h : parseByte c q b = .inr r) :
    r.consumed = q.pos := by
  obtain rfl | rfl := parseByte_ends c q b r h
  · exact q.finish_consumed c
  · rfl

/-- A byte inspected is counted, and a DECODE ends with no less counted than it had, if it does on the bytes that follow. -/
theorem pos_lt_parseFrom_cons {c : Config} {rest : List Byte} (h : ∀ q, q.pos ≤ (parseFrom c q rest).consumed)
    (q : ParseState) (b : Byte) : q.pos < (parseFrom c q (b :: rest)).consumed := by
  cases hb : parseByte c (q.counted 1) b with
  | inl q' =>
    rw [parseFrom_goesOn hb]
    have hpos : q'.pos = q.pos + 1 := parseByte_goesOn c _ _ b hb
    exact Nat.lt_of_lt_of_le (by omega) (h q')
  | inr r =>
    rw [parseFrom_stops hb, parseByte_ends_consumed hb]
    exact Nat.lt_succ_self _

/-- A DECODE ends with no less counted than it had. -/
theorem pos_le_parseFrom_consumed (c : Config) (q : ParseState) (buf : List Byte) :
    q.pos ≤ (parseFrom c q buf).consumed := by
  induction buf generalizing q with
  | nil => exact Nat.le_refl _
  | cons b rest ih => exact Nat.le_of_lt (pos_lt_parseFrom_cons ih q b)

/-- A DECODE inspects a byte when there is one. -/
theorem pos_lt_parseFrom_consumed (c : Config) (q : ParseState) {buf : List Byte} (h : buf ≠ []) :
    q.pos < (parseFrom c q buf).consumed := by
  obtain ⟨b, rest, rfl⟩ := List.exists_cons_of_ne_nil h
  exact pos_lt_parseFrom_cons (pos_le_parseFrom_consumed c · rest) q b

/-- Only from SCAN, and only on another byte than S, is the next state SCAN (R131). -/
theorem parseByte_stays_scan {c : Config} {q q' : ParseState} {b : Byte} (h : parseByte c q b = .inl q')
    (hst : q'.st = .scan) : q.st = .scan ∧ b ≠ c.startByte := by
  unfold parseByte at h
  split at h
  next => cases h; cases hst
  next hq hS => exact ⟨hq, fun hb => hS (if_pos hb)⟩
  next => cases h; cases hst
  next => cases h
  next hq _ _ =>
    cases h
    cases hq.symm.trans ((q.store_st c b).symm.trans hst)
  next => cases h; cases hst
  next => cases h; cases hst
  next => cases h; cases hst
  next =>
    split at h
    · cases h
    · cases h; cases hst
  next => cases h; cases hst
  next => cases h
  next hq _ =>
    cases h
    cases hq.symm.trans hst

/-- The loop over the first bytes `a` of a buffer: it ends within them, or reaches working values that do not depend on what
follows. Those are in SCAN only if it began in SCAN and `a` holds no S. -/
theorem parseFrom_append (c : Config) (q : ParseState) (a : List Byte) :
    (∃ r : Result, r.consumed ≤ q.pos + a.length ∧ ∀ rest, parseFrom c q (a ++ rest) = r) ∨
    (∃ q' : ParseState, q'.pos = q.pos + a.length ∧ (q'.st = .scan → q.st = .scan ∧ c.startByte ∉ a) ∧
      ∀ rest, parseFrom c q (a ++ rest) = parseFrom c q' rest) := by
  induction a generalizing q with
  | nil => exact .inr ⟨q, rfl, fun h => ⟨h, List.not_mem_nil⟩, fun _ => rfl⟩
  | cons b a ih =>
    rw [List.length_cons]
    cases hb : parseByte c (q.counted 1) b with
    | inl q₁ =>
      have hpos : q₁.pos = q.pos + 1 := parseByte_goesOn c _ _ b hb
      obtain ⟨r, hr, heq⟩ | ⟨q', hq', hscan, heq⟩ := ih q₁
      · exact .inl ⟨r, by omega, fun rest => (parseFrom_goesOn hb _).trans (heq rest)⟩
      · refine .inr ⟨q', by omega, fun h => ?_, fun rest => (parseFrom_goesOn hb _).trans (heq rest)⟩
        obtain ⟨hst, ha⟩ := hscan h
        obtain ⟨hst', hS⟩ := parseByte_stays_scan hb hst
        exact ⟨hst', List.not_mem_cons_of_ne_of_not_mem (Ne.symm hS) ha⟩
    | inr r =>
      refine .inl ⟨r, ?_, fun rest => parseFrom_stops hb _⟩
      rw [parseByte_ends_consumed hb, ParseState.counted_pos]
      omega

/-- Settles O49: the first byte is inspected and counted. -/
theorem decodeMakesProgress : Obligations.DecodeMakesProgress := by
  intro c buf
  refine ⟨pos_lt_parseFrom_consumed c ParseState.initial, ?_⟩
  rintro rfl
  rfl

/-- Settles O50: a parse that does not end within the buffer is invalid with every byte counted. -/
theorem bytesAfterTheEndAreNotInspected : Obligations.BytesAfterTheEndAreNotInspected := by
  intro c buf more hended
  obtain ⟨r, -, heq⟩ | ⟨q, hpos, -, heq⟩ := parseFrom_append c ParseState.initial buf
  · have hbuf := heq []
    rw [List.append_nil] at hbuf
    rw [decodeFrame, decodeFrame, heq more, hbuf]
  · have hbuf : decodeFrame c buf = Result.invalid buf.length := by
      have hend := heq []
      rw [List.append_nil] at hend
      rw [decodeFrame, hend, parseFrom, hpos]
      exact congrArg Result.invalid (Nat.zero_add _)
    rw [hbuf] at hended
    exact absurd hended (by simp)

end Sys2Proof.Machine
end

section
/-! PROOF. A frame met outside SCAN is swallowed (41_decoder.md R154, R155), and what that means for the caller's
resynchronisation loop (R152). -/

namespace Sys2Proof.Machine

/-- A frame of at least N units that the decoder meets in BODY, ESCD or DRAIN: its S is stored, so that the body overflows, or
drains; the parse fails at the frame's E. -/
theorem parseFrom_swallows {c : Config} (hc : c.Admitted) {q : ParseState} (hst : q.st ≠ .scan) {vs : List Byte}
    (hvs : c.packetSize ≤ vs.length) (rest : List Byte) :
    parseFrom c q ([c.startByte] ++ vs.flatMap c.unit ++ [c.endByte] ++ rest) =
      Result.invalid (q.pos + ((vs.flatMap c.unit).length + 2)) := by
  obtain ⟨hSE, hSX, -, -, -, -, hescaped⟩ := hc.special_ne
  have hE : c.endByte ∉ vs.flatMap c.unit := (units_hold_no_marker hc vs).2
  have hframe : [c.startByte] ++ vs.flatMap c.unit ++ [c.endByte] ++ rest =
      c.startByte :: vs.flatMap c.unit ++ c.endByte :: rest := by simp
  rw [hframe]
  cases hq : q.st with
  | scan => exact absurd hq hst
  | body =>
    have hbody : ((q.counted 1).store c c.startByte).st = .body := by simp [hq]
    have hovf : ((((q.counted 1).store c c.startByte).counted (vs.flatMap c.unit).length).storeAll c vs).ovf = true := by
      rw [ParseState.counted_store, ← ParseState.storeAll_cons]
      refine ParseState.storeAll_overflows ?_ (List.cons_ne_nil _ _)
      rw [List.length_cons]
      omega
    rw [List.cons_append, parseFrom_verbatim hc hq hSX hSE, parseFrom_body hc hbody,
      ParseState.finish_of_ovf (q := ParseState.counted _ 1) hovf]
    congr 1
    simp only [ParseState.counted_pos, ParseState.storeAll_pos, ParseState.store_pos]
    omega
  | escd =>
    rw [List.cons_append, parseFrom_violation hc hq (fun h => (hescaped _ h).1 rfl) hSE, parseFrom_drain hc rfl hE]
    congr 1
    show q.pos + 1 + _ = _
    omega
  | drain =>
    have hE' : c.endByte ∉ c.startByte :: vs.flatMap c.unit := List.not_mem_cons_of_ne_of_not_mem hSE.symm hE
    exact parseFrom_drain hc hq hE' rest

section
variable {c : Config} (hc : c.Admitted) (hcap : 2 * c.packetSize + 2 ≤ c.frameCap) {p : List Byte}
  (hp : p.length = c.packetSize)
include hc hcap hp

/-- The frame of a packet, met outside SCAN. -/
theorem parseFrom_swallows_frame {q : ParseState} (hst : q.st ≠ .scan) (rest : List Byte) :
    parseFrom c q (encodeFrame c p ++ rest) = Result.invalid (q.pos + (encodeFrame c p).length) := by
  rw [defaultCapacityNeverTruncates.2 c p hcap hp, framed_length]
  exact parseFrom_swallows hc hst (Nat.le_of_eq hp.symm) rest

/-- After garbage that holds S the frame is not returned: the DECODE ends before the frame's end or fails there. -/
theorem decodeFrame_after_start {g : List Byte} (hg : c.startByte ∈ g) (h : List Byte) :
    (decodeFrame c (g ++ encodeFrame c p ++ h)).consumed ≤ g.length ∨
    (decodeFrame c (g ++ encodeFrame c p ++ h)).valid = false := by
  rw [decodeFrame, List.append_assoc]
  obtain ⟨r, hr, heq⟩ | ⟨q, -, hscan, heq⟩ := parseFrom_append c ParseState.initial g
  · rw [heq]
    exact .inl (Nat.zero_add g.length ▸ hr)
  · rw [heq, parseFrom_swallows_frame hc hcap hp fun hst => (hscan hst).2 hg]
    exact .inr rfl

end

/-- A valid DECODE counts more than the bytes before the first S. -/
theorem lt_consumed_of_valid {c : Config} {a : List Byte} (ha : c.startByte ∉ a) {b : List Byte}
    (hv : (decodeFrame c (a ++ b)).valid = true) : a.length < (decodeFrame c (a ++ b)).consumed := by
  rw [decodeFrame, parseFrom_garbage rfl ha] at hv ⊢
  have hne : b ≠ [] := by
    rintro rfl
    cases hv
  have hlt := pos_lt_parseFrom_consumed c (ParseState.initial.counted a.length) hne
  rwa [ParseState.counted_pos, show ParseState.initial.pos = 0 from rfl, Nat.zero_add] at hlt

/-- Bytes outside R are their own units. -/
theorem flatMap_unit_plain {c : Config} {d : List Byte} (hd : ∀ b ∈ d, b ∉ c.reserved) : d.flatMap c.unit = d := by
  induction d with
  | nil => rfl
  | cons b d ih =>
    rw [List.forall_mem_cons] at hd
    rw [List.flatMap_cons, c.unit_plain hd.1, ih hd.2, List.singleton_append]

/-- S stands in a frame only at its beginning. -/
theorem startByte_notMem_frame_tail {c : Config} (hc : c.Admitted) (p : List Byte) :
    c.startByte ∉ (encodeFrame c p).tail := by
  obtain ⟨j, -, heq, -⟩ := encodeFrame_eq_units hc.2.2.2 p
  simp [heq, hc.special_ne.1, (units_hold_no_marker hc (p.take j)).1]

/-- Settles O54: after body bytes the frame is met in BODY, after an escape violation in DRAIN. -/
theorem drainsAndMergesSwallowTheNextFrame : Obligations.DrainsAndMergesSwallowTheNextFrame := by
  intro c p d v hc hcap hp hd hv hvE
  constructor
  · have hbuf : c.startByte :: d ++ encodeFrame c p = c.startByte :: (d.flatMap c.unit ++ (encodeFrame c p ++ [])) := by
      rw [flatMap_unit_plain hd, List.append_nil, List.cons_append]
    rw [hbuf, decodeFrame, parseFrom_start c rfl, parseFrom_units hc rfl,
      parseFrom_swallows_frame hc hcap hp (by simp), flatMap_unit_plain hd]
    simp [ParseState.initial, Result.invalid]
  · rw [decodeFrame, parseFrom_start c rfl, parseFrom_escape hc rfl, parseFrom_violation hc rfl hv hvE,
      ← List.append_nil (encodeFrame c p), parseFrom_swallows_frame hc hcap hp (by simp)]
    simp [ParseState.initial, Result.invalid]

/-- A pass that starts inside the frame does not end validly at the frame's end: no S is left there. -/
theorem decodeFrame_inside {c : Config} (hc : c.Admitted) {p g h : List Byte} {o : Nat} (ho : g.length < o)
    (hv : (decodeFrame c ((g ++ encodeFrame c p ++ h).drop o)).valid = true) :
    (encodeFrame c p).length + g.length - o < (decodeFrame c ((g ++ encodeFrame c p ++ h).drop o)).consumed := by
  have htail : c.startByte ∉ (g ++ encodeFrame c p).drop o := by
    obtain ⟨k, rfl⟩ := Nat.exists_eq_add_of_lt ho
    rw [Nat.add_assoc, List.drop_length_add_append, Nat.add_comm, ← List.drop_drop, List.drop_one]
    exact fun hS => startByte_notMem_frame_tail hc p (List.mem_of_mem_drop hS)
  have hlen : ((g ++ encodeFrame c p).drop o).length = (encodeFrame c p).length + g.length - o := by
    rw [List.length_drop, List.length_append, Nat.add_comm]
  rw [List.drop_append] at hv ⊢
  exact hlen ▸ lt_consumed_of_valid htail hv

/-- Settles O53: the pass that returns the frame starts before it, and finds no S before it. -/
theorem resynchronisationReturnsTheFrameExactlyUnderItsCondition :
    Obligations.ResynchronisationReturnsTheFrameExactlyUnderItsCondition := by
  intro c p g h hc hcap hp
  have hdrop {o : Nat} (ho : o ≤ g.length) :
      (g ++ encodeFrame c p ++ h).drop o = g.drop o ++ encodeFrame c p ++ h := by
    rw [List.append_assoc, List.drop_append_of_le_length ho, List.append_assoc]
  refine exists_congr fun o => and_congr_right fun _ => ⟨fun hres => ?_, fun ⟨ho, hg⟩ => ?_⟩
  · have hvalid := congrArg Result.valid hres
    have hconsumed := congrArg Result.consumed hres
    dsimp only at hvalid hconsumed
    have ho : o ≤ g.length := by
      refine Nat.le_of_not_lt fun hlt => ?_
      have hpast := decodeFrame_inside hc hlt hvalid
      omega
    refine ⟨ho, fun hS => ?_⟩
    have hlen : 2 ≤ (encodeFrame c p).length := by
      rw [defaultCapacityNeverTruncates.2 c p hcap hp, framed_length]
      omega
    rw [hdrop ho] at hvalid hconsumed
    obtain hle | hinvalid := decodeFrame_after_start hc hcap hp hS h
    · rw [List.length_drop] at hle
      omega
    · exact Bool.false_ne_true (hinvalid.symm.trans hvalid)
  · rw [hdrop ho, decodeOfAnEncodedPacketIsThePacket c p _ h hc hcap hp hg, List.length_drop, Nat.add_comm,
      Nat.add_sub_assoc ho]

end Sys2Proof.Machine
end

section
/-! PROOF. The byte-level steps of the decoder, each at the byte that selects it (41_decoder.md R134 to R144). -/

namespace Sys2Proof.Machine

theorem State.DecoderAt.sees {s : State} {st : DecState} {buf : List Byte} {b : Byte} (h : s.DecoderAt st buf b) :
    s.dec.sees st b :=
  h.sees_iff.mpr ⟨rfl, rfl⟩

/-- The row of DEC_ESC for the escaped form of a reserved byte is R139 for that form. -/
theorem exec_unescapeRow {s : State} {r : Byte} {i : Instr}
    (h : (i = .decEscS ∧ r = s.cfg.startByte) ∨ (i = .decEscE ∧ r = s.cfg.endByte) ∨
      (i = .decEscX ∧ r = s.cfg.escByte)) : exec i s = decUnescape (s.cfg.esc r) s := by
  obtain ⟨rfl, rfl⟩ | ⟨rfl, rfl⟩ | ⟨rfl, rfl⟩ := h <;> rfl

/-- DEC_EXHAUST with no byte left (R144). -/
theorem execDecExhaust_taken {s : State} {buf : List Byte} (h : s.dec.buf = some buf) (hp : s.dec.pos = buf.length) :
    execDecExhaust s = .next (s.endDecode (Result.invalid buf.length)) := by
  rw [execDecExhaust, h]
  exact if_pos (Nat.le_of_eq hp.symm)

/-- Only SCAN selects DEC_SCAN_START (R63). -/
theorem decodeDecoderByte_ne_start (c : Config) {st : DecState} (hst : st ≠ .scan) (b : Byte) :
    decodeDecoderByte c st b ≠ .decScanStart := by
  cases st with
  | scan => exact absurd rfl hst
  | body | escd | drain =>
    unfold decodeDecoderByte
    cases c.decClass b <;> exact nofun

/-- Settles O35: the step is taken, and no other state selects it. -/
theorem decScanStartEntersBody : Obligations.DecScanStartEntersBody :=
  fun s _ => ⟨fun hat => if_pos hat.sees,
    fun _ hst h => decodeDecoderByte_ne_start s.cfg hst _ (Except.ok.inj h)⟩

/-- Settles O36: the step is taken. -/
theorem decScanSkipDiscards : Obligations.DecScanSkipDiscards :=
  fun _ _ _ hat hS => if_pos ⟨hat.sees, hS⟩

/-- Settles O37: the step is taken, and after the last byte DEC_EXHAUST is. -/
theorem decBodyEscEntersEscaped : Obligations.DecBodyEscEntersEscaped :=
  fun _ _ hat => ⟨_, if_pos hat.sees, rfl, fun hlast => ⟨_, execDecExhaust_taken hat.2.1 hlast⟩⟩

/-- Settles O38: the step ends the DECODE with the length check of R146. -/
theorem decBodyEndReturnsTheLengthCheck : Obligations.DecBodyEndReturnsTheLengthCheck := by
  intro s buf hat
  have hexec : exec .decBodyEnd s = .next (s.endDecode (s.dec.counted.finish s.cfg)) := if_pos hat.sees
  rw [hexec]
  refine ⟨fun hvalid => ?_, fun hinvalid => ?_⟩
  · have hfinish : s.dec.counted.finish s.cfg =
        { valid := true, consumed := s.dec.pos + 1, pkt := some (s.dec.asm.slice s.cfg.packetSize) } := if_pos hvalid
    rw [hfinish]
    exact ⟨_, _, rfl, rfl, Memory.slice_length _ _, fun _ _ => Memory.getElem?_slice⟩
  · have hfinish : s.dec.counted.finish s.cfg = { valid := false, consumed := s.dec.pos + 1, pkt := none } := by
      refine if_neg fun hvalid => ?_
      obtain hovf | hidx := hinvalid
      · exact Bool.false_ne_true (hvalid.1.symm.trans hovf)
      · exact hidx hvalid.2
    rw [hfinish]
    exact ⟨_, rfl, rfl⟩

/-- Settles O39: the step is taken, and stores b within the bound. -/
theorem decBodyDataStoresVerbatim : Obligations.DecBodyDataStoresVerbatim := by
  intro s buf b hat hX hE
  have hexec : exec (.decBodyData b) s = .next (s.withDec (s.dec.counted.store s.cfg b)) := if_pos ⟨hat.sees, hX, hE⟩
  refine ⟨fun hroom => ⟨s.dec.asm.write s.dec.idx b, ?_, Memory.read_write_same _ _ _,
    fun a => Memory.read_write_other _ _ a _⟩, fun hfull => ?_⟩
  · rw [hexec, s.dec.counted.store_room _ _ hroom]
    rfl
  · rw [hexec, s.dec.counted.store_full _ _ hfull]
    rfl

/-- Settles O40: each row of DEC_ESC stores the byte that its escaped form stands for. -/
theorem decEscUnescapesAndStores : Obligations.DecEscUnescapesAndStores := by
  intro s buf r i hrow hat
  have hexec : exec i s = .next (s.withDec { s.dec.counted.store s.cfg r with st := .body }) := by
    rw [exec_unescapeRow hrow, decUnescape, s.cfg.unesc_esc]
    exact if_pos hat.sees
  have hread : (s.dec.asm.write s.dec.idx r).read s.dec.idx = some r := Memory.read_write_same _ _ _
  have hunesc : r + s.cfg.escOffset - s.cfg.escOffset = r := s.cfg.unesc_esc r
  refine ⟨fun hroom => ⟨s.dec.asm.write s.dec.idx r, ?_, hunesc.symm ▸ hread, hread,
    fun a => Memory.read_write_other _ _ a _⟩, fun hfull => ?_⟩
  · rw [hexec, s.dec.counted.store_room _ _ hroom]
    rfl
  · rw [hexec, s.dec.counted.store_full _ _ hfull]
    rfl

theorem execDecEscEnd_terminate {s : State} (h : s.dec.sees .escd s.cfg.endByte) (hp : s.cfg.escEndPolicy = .terminate) :
    execDecEscEnd s = .next (s.endDecode (Result.invalid (s.dec.pos + 1))) := by
  rw [execDecEscEnd, if_pos h, hp]
  rfl

theorem execDecEscEnd_drain {s : State} (h : s.dec.sees .escd s.cfg.endByte) (hp : s.cfg.escEndPolicy = .drain) :
    execDecEscEnd s = .next (s.withDec { s.dec.counted with st := .drain }) := by
  rw [execDecEscEnd, if_pos h, hp]

/-- Settles O41: the step is taken, under each policy. -/
theorem decEscEndFollowsThePolicy : Obligations.DecEscEndFollowsThePolicy :=
  fun _ _ hat => ⟨fun hp => ⟨_, execDecEscEnd_terminate hat.sees hp, rfl⟩, execDecEscEnd_drain hat.sees⟩

/-- Settles O42: a byte that is none of the three escaped forms is outside Q. -/
theorem decEscBadStartsTheDrain : Obligations.DecEscBadStartsTheDrain := by
  intro s buf b hat hS hE hX hend
  have hq : b ∉ s.cfg.escaped := fun h => ((s.cfg.mem_escaped b).mp h).elim hS (Or.elim · hE hX)
  exact if_pos ⟨hat.sees, hq, hend⟩

/-- Settles O43: the step is taken. -/
theorem decDrainEndReturnsInvalid : Obligations.DecDrainEndReturnsInvalid :=
  fun _ _ hat => ⟨_, if_pos hat.sees, rfl⟩

/-- Settles O44: the step is taken. -/
theorem decDrainSkipConsumes : Obligations.DecDrainSkipConsumes :=
  fun _ _ _ hat hE => if_pos ⟨hat.sees, hE⟩

/-- Settles O45: the step is taken, in every state of the decoder. -/
theorem decExhaustReturnsInvalid : Obligations.DecExhaustReturnsInvalid :=
  fun _ _ => execDecExhaust_taken

end Sys2Proof.Machine
end

section
/-! PROOF. DECODE as an operation, and the byte-serial ENCODE and DECODE taken in: the operand check, then the result or the unit's
initial state (30_encoding.md R71, 41_decoder.md R130, R132). -/

namespace Sys2Proof.Machine

theorem bufRefused_eq_none {c : Config} {buf : List Byte} (h : ∀ m, c.maxBuf = some m → buf.length ≤ m) :
    bufRefused c buf = none :=
  if_pos ((Instr.wf_decode_iff c buf).mpr h)

theorem bufRefused_eq_some {c : Config} {buf : List Byte} {m : Nat} (hm : c.maxBuf = some m) (h : m < buf.length) :
    bufRefused c buf = some (.operandRefused .decode buf.length) :=
  if_neg fun hfits => Nat.not_le_of_lt h ((Instr.wf_decode_iff c buf).mp hfits m hm)

theorem execDecode_accepted {s : State} {buf : List Byte} (h : ∀ m, s.cfg.maxBuf = some m → buf.length ≤ m) :
    execDecode buf s = .next (s.give (decodeFrame s.cfg buf)) := by
  rw [execDecode, bufRefused_eq_none h]

/-- Settles O23: the operand check, then the result. -/
theorem decodeReturnsOneResult : Obligations.DecodeReturnsOneResult := by
  intro s buf
  refine ⟨fun m hm h => ?_, execDecode_accepted⟩
  rw [exec, execDecode, bufRefused_eq_some hm h]

/-- An operation presented to the byte-serial realisation that does not wait for its unit. -/
theorem step_serialOp {s : State} {w : PortWord} {rest : List Input} (hadm : s.cfg.Admitted)
    (hi : s.inputs = .serial w :: rest) (hfree : blockedBy s w = none) :
    step s = serialOp w { s with inputs := rest } := by
  have hhead : schedule s = (.serial w, { s with inputs := rest }) := by
    refine schedule_head s _ rest hi ?_
    rintro w' (h | h) <;> cases h
    exact hfree
  rw [step_admitted s hadm, hhead]
  rfl

theorem blockedBy_idle {s : State} (he : s.enc = EncUnit.idle) (hd : s.dec = DecUnit.idle) (w : PortWord) :
    blockedBy s w = none :=
  blockedBy_none s w (by simp [he, EncUnit.idle_busy]) (by simp [hd, DecUnit.idle_busy])

theorem step_serialDecode {s : State} {v : Bool} {data : List Byte} {rest : List Input} (hadm : s.cfg.Admitted)
    (hi : s.inputs = .serial { op := 2, v := v, data := data } :: rest)
    (hfree : blockedBy s { op := 2, v := v, data := data } = none) :
    step s = beginDecode data { s with inputs := rest } := by
  rw [step_serialOp hadm hi hfree]
  exact (if_neg fun h => absurd h.1 (show (2 : BitVec 2) ≠ 1 by decide)).trans (if_pos rfl)

/-- A DECODE that fits is taken in with R132's initial state. -/
theorem beginDecode_accepted {s : State} {buf : List Byte} (h : ∀ m, s.cfg.maxBuf = some m → buf.length ≤ m) :
    beginDecode buf s =
      .next (s.withDec { st := .scan, buf := some buf, asm := [], idx := 0, ovf := false, pos := 0 }) := by
  rw [beginDecode, bufRefused_eq_none h]

/-- Settles O18: no unit is busy, so the operation is taken in after its operand check. -/
theorem serialOperationsBegin : Obligations.SerialOperationsBegin := by
  intro s v data rest hadm he hd
  refine ⟨fun hi hs => ⟨fun hl => ?_, fun hl => ?_⟩, fun hi => ⟨fun hfits => ⟨[], ?_⟩, fun m hm hl => ?_⟩⟩
  · rw [he]
    exact step_beginEncode hadm hi rfl (blockedBy_idle he hd _) hs hl
  · rw [step_serialOp hadm hi (blockedBy_idle he hd _), serialOp, if_pos ⟨rfl, hs⟩, beginEncode, pktRefused_eq_some hl]
  · rw [step_serialDecode hadm hi (blockedBy_idle he hd _)]
    exact beginDecode_accepted hfits
  · rw [step_serialDecode hadm hi (blockedBy_idle he hd _), beginDecode, bufRefused_eq_some hm hl]

end Sys2Proof.Machine
end

section
/-! PROOF. A byte-serial DECODE worked to its end is the atomic one (00_scope.md R3, 41_decoder.md R130 to R148): each turn of
the decoder is one pass of the loop, and the turns of a block with no input are followed over the bytes that remain. -/

namespace Sys2Proof.Machine

/-- The decoder unit holds the operand `buf` and the loop's working values: asm[0..idx) is `stored`. -/
structure DecUnit.Parses (u : DecUnit) (buf : List Byte) (q : ParseState) : Prop where
  operand : u.buf = some buf
  st : u.st = q.st
  stored : u.asm.slice u.idx = q.stored
  ovf : u.ovf = q.ovf
  pos : u.pos = q.pos

section
variable {u : DecUnit} {buf : List Byte} {q : ParseState} (h : u.Parses buf q)
include h

theorem DecUnit.Parses.stored_length : q.stored.length = u.idx :=
  h.stored ▸ Memory.slice_length _ _

theorem DecUnit.Parses.counted : u.counted.Parses buf (q.counted 1) :=
  { h with pos := congrArg (· + 1) h.pos }

theorem DecUnit.Parses.withSt (st : DecState) : DecUnit.Parses { u with st := st } buf { q with st := st } :=
  { h with st := rfl }

/-- The two bounded stores agree (R145). -/
theorem DecUnit.Parses.store (c : Config) (v : Byte) : (u.store c v).Parses buf (q.store c v) := by
  have hlen := h.stored_length
  by_cases hroom : u.idx < c.packetSize
  · rw [DecUnit.store_room c u v hroom, ParseState.store_room (hlen ▸ hroom)]
    exact { h with stored := (Memory.slice_write_next _ _ v).trans (congrArg (· ++ [v]) h.stored) }
  · rw [DecUnit.store_full c u v (Nat.le_of_not_lt hroom), ParseState.store_full (hlen ▸ Nat.le_of_not_lt hroom)]
    exact { h with ovf := rfl }

/-- The two length checks agree (R146). -/
theorem DecUnit.Parses.finish (c : Config) : u.finish c = q.finish c := by
  unfold DecUnit.finish ParseState.finish
  rw [h.ovf, h.pos, h.stored_length, ← h.stored]
  by_cases hidx : q.ovf = false ∧ u.idx = c.packetSize
  · rw [if_pos hidx, if_pos hidx, hidx.2]
  · rw [if_neg hidx, if_neg hidx]
    rfl

end

/-- An outcome of the machine is what a pass of the loop over `buf` answers: the decoder has the new working values, or the
DECODE has ended with the result. -/
def State.TakesPass (s : State) (buf : List Byte) (o : Host.Outcome State Fault Refusal) : ParseState ⊕ Result → Prop
  | .inl q => ∃ u : DecUnit, o = .next (s.withDec u) ∧ u.Parses buf q
  | .inr r => o = .next (s.endDecode r)

/-- A byte of Q in ESCD selects the row that stores what it stands for (R139). -/
theorem exec_escapedRow {s : State} {b : Byte} (hc : s.cfg.Admitted) (hb : b ∈ s.cfg.escaped) :
    exec (decodeDecoderByte s.cfg .escd b) s = decUnescape b s := by
  obtain ⟨-, -, -, hS, hE, hX⟩ := hc.decClass_special
  obtain rfl | rfl | rfl := (s.cfg.mem_escaped b).mp hb
  · simp only [decodeDecoderByte, hS]
    rfl
  · simp only [decodeDecoderByte, hE]
    rfl
  · simp only [decodeDecoderByte, hX]
    rfl

section
variable {s : State} {buf : List Byte} {b : Byte} {q : ParseState} (hc : s.cfg.Admitted)
  (hq : s.dec.counted.Parses buf q)
include hc hq

/-- R134 and R135: the row selected in SCAN is the loop's pass. -/
theorem takesPass_scan (h : s.dec.sees .scan b) :
    s.TakesPass buf (exec (decodeDecoderByte s.cfg .scan b) s) (parseByte s.cfg q b) := by
  rw [decodeDecoderByte_scan hc, parseByte_scan _ (hq.st.symm.trans h.1)]
  by_cases hS : b = s.cfg.startByte
  · subst hS
    rw [if_pos rfl, if_pos rfl]
    exact ⟨_, if_pos h, hq.withSt .body⟩
  · rw [if_neg hS, if_neg hS]
    exact ⟨_, if_pos ⟨h, hS⟩, hq⟩

/-- R136 to R138: the row selected in BODY is the loop's pass. -/
theorem takesPass_body (h : s.dec.sees .body b) :
    s.TakesPass buf (exec (decodeDecoderByte s.cfg .body b) s) (parseByte s.cfg q b) := by
  rw [decodeDecoderByte_body hc, parseByte_body hc (hq.st.symm.trans h.1)]
  by_cases hX : b = s.cfg.escByte
  · subst hX
    rw [if_pos rfl, if_pos rfl]
    exact ⟨_, if_pos h, hq.withSt .escd⟩
  rw [if_neg hX, if_neg hX]
  by_cases hE : b = s.cfg.endByte
  · subst hE
    rw [if_pos rfl, if_pos rfl, ← hq.finish]
    exact if_pos h
  · rw [if_neg hE, if_neg hE]
    exact ⟨_, if_pos ⟨h, hX, hE⟩, hq.store _ b⟩

/-- R139 to R141: the row selected in ESCD is the loop's pass. -/
theorem takesPass_escd (h : s.dec.sees .escd b) :
    s.TakesPass buf (exec (decodeDecoderByte s.cfg .escd b) s) (parseByte s.cfg q b) := by
  rw [parseByte_escd hc (hq.st.symm.trans h.1)]
  by_cases hesc : b ∈ s.cfg.escaped
  · rw [exec_escapedRow hc hesc, if_pos hesc]
    exact ⟨_, if_pos h, (hq.store _ _).withSt .body⟩
  have hne := mt (s.cfg.mem_escaped b).mpr hesc
  rw [not_or, not_or] at hne
  rw [if_neg hesc, decodeDecoderByte_escd hc, if_neg hne.1, if_neg hne.2.1, if_neg hne.2.2]
  by_cases hE : b = s.cfg.endByte
  · subst hE
    rw [if_pos rfl]
    cases hp : s.cfg.escEndPolicy with
    | terminate =>
      rw [if_pos ⟨rfl, rfl⟩, ← hq.pos]
      exact execDecEscEnd_terminate h hp
    | drain =>
      rw [if_neg fun hpol => nomatch hpol.2]
      exact ⟨_, execDecEscEnd_drain h hp, hq.withSt .drain⟩
  · rw [if_neg hE, if_neg fun hend => hE hend.1]
    exact ⟨_, if_pos ⟨h, hesc, hE⟩, hq.withSt .drain⟩

/-- R142 and R143: the row selected in DRAIN is the loop's pass. -/
theorem takesPass_drain (h : s.dec.sees .drain b) :
    s.TakesPass buf (exec (decodeDecoderByte s.cfg .drain b) s) (parseByte s.cfg q b) := by
  rw [decodeDecoderByte_drain hc, parseByte_drain hc (hq.st.symm.trans h.1)]
  by_cases hE : b = s.cfg.endByte
  · subst hE
    rw [if_pos rfl, if_pos rfl, ← hq.pos]
    exact if_pos h
  · rw [if_neg hE, if_neg hE]
    exact ⟨_, if_pos ⟨h, hE⟩, hq⟩

end

theorem decoderTurn_byte {s : State} {buf : List Byte} {b : Byte} (hbuf : s.dec.buf = some buf)
    (hb : buf[s.dec.pos]? = some b) : perform .decoderTurn s = exec (decodeDecoderByte s.cfg s.dec.st b) s := by
  have hpresent : decoderPresent s.dec = .decoderByte s.dec.st b := by
    simp only [decoderPresent, hbuf, hb]
  exact run_decoded (congrArg (decode s.cfg) hpresent)

/-- A turn of the decoder at a byte is one pass of the loop, the byte counted. -/
theorem decoderTurn_takesPass {s : State} {buf : List Byte} {b : Byte} {q : ParseState} (hc : s.cfg.Admitted)
    (hq : s.dec.Parses buf q) (hb : buf[s.dec.pos]? = some b) :
    s.TakesPass buf (perform .decoderTurn s) (parseByte s.cfg (q.counted 1) b) := by
  have hcur : s.dec.cur = some b := (s.dec.cur_eq b).mpr ⟨buf, hq.operand, hb⟩
  rw [decoderTurn_byte hq.operand hb]
  cases hst : s.dec.st with
  | scan => exact takesPass_scan hc hq.counted ⟨hst, hcur⟩
  | body => exact takesPass_body hc hq.counted ⟨hst, hcur⟩
  | escd => exact takesPass_escd hc hq.counted ⟨hst, hcur⟩
  | drain => exact takesPass_drain hc hq.counted ⟨hst, hcur⟩

theorem decoderTurn_end {s : State} {buf : List Byte} (hbuf : s.dec.buf = some buf) (hpos : s.dec.pos = buf.length) :
    perform .decoderTurn s = .next (s.endDecode (Result.invalid buf.length)) := by
  have hpresent : decoderPresent s.dec = .decoderEnd s.dec.st := by
    simp only [decoderPresent, hbuf, hpos, List.getElem?_eq_none (Nat.le_refl buf.length)]
  exact (run_decoded (congrArg (decode s.cfg) hpresent)).trans (execDecExhaust_taken hbuf hpos)

/-- In an admitted block with no input and the encoder at rest, the decoder is at the loop's working values q, and `rest` is what
remains of its operand. -/
structure State.DecodingAlone (s : State) (q : ParseState) (rest : List Byte) : Prop where
  admitted : s.cfg.Admitted
  noInput : s.inputs = []
  encoderAtRest : s.enc.busy = false
  operand : ∃ taken, s.dec.Parses (taken ++ rest) q ∧ taken.length = q.pos

/-- The busy decoder takes the turn (log 3). -/
theorem State.DecodingAlone.step_eq {s : State} {q : ParseState} {rest : List Byte} (h : s.DecodingAlone q rest) :
    step s = perform .decoderTurn s := by
  obtain ⟨taken, hq, -⟩ := h.operand
  have hbusy : s.dec.busy = true := s.dec.busy_iff.mpr (hq.operand ▸ nofun)
  rw [step_admitted s h.admitted, schedule, h.noInput]
  simp [h.encoderAtRest, hbusy]

/-- The DECODE ends in at most one step for each remaining byte and one more, with the result of the loop. -/
theorem run_decodingAlone {rest : List Byte} {s : State} {q : ParseState} (h : s.DecodingAlone q rest) :
    ∃ k, k ≤ rest.length + 1 ∧ Sys2Proof.core.run k s = .next (s.endDecode (parseFrom s.cfg q rest)) := by
  induction rest generalizing s q with
  | nil =>
    obtain ⟨taken, hq, htaken⟩ := h.operand
    rw [List.append_nil] at hq
    have hend := h.step_eq.trans (decoderTurn_end hq.operand (hq.pos.trans htaken.symm))
    rw [htaken] at hend
    exact ⟨1, Nat.le_refl 1, core_run_succ hend 0⟩
  | cons b rest ih =>
    obtain ⟨taken, hq, htaken⟩ := h.operand
    have hb : (taken ++ b :: rest)[s.dec.pos]? = some b := by simp [hq.pos, ← htaken]
    have hpass := decoderTurn_takesPass h.admitted hq hb
    rw [← h.step_eq] at hpass
    cases hparse : parseByte s.cfg (q.counted 1) b with
    | inl q' =>
      rw [hparse] at hpass
      obtain ⟨u, hstep, hu⟩ := hpass
      have hpos : q'.pos = q.pos + 1 := parseByte_goesOn _ _ _ b hparse
      have hnext : State.DecodingAlone (s.withDec u) q' rest :=
        { h with operand := ⟨taken ++ [b], by simpa using hu, by simp [htaken, hpos]⟩ }
      obtain ⟨k, hk, hrun⟩ := ih hnext
      refine ⟨k + 1, Nat.succ_le_succ hk, ?_⟩
      rw [core_run_succ hstep, hrun, parseFrom_goesOn hparse]
      rfl
    | inr r =>
      rw [hparse] at hpass
      refine ⟨1, by simp, ?_⟩
      rw [core_run_succ hpass 0, parseFrom_stops hparse]
      rfl

/-- Settles O47: the operand is taken in, the unit works alone to the end of the parse, and rests as before. -/
theorem byteSerialDecodeIsDecode : Obligations.ByteSerialDecodeIsDecode := by
  intro s v buf hadm hinv hp hbuf hfits hi
  have henc : s.enc = EncUnit.idle := hinv.enc.atRest hp
  have hdec : s.dec = DecUnit.idle := hinv.dec.atRest hbuf
  have hatomic : Sys2Proof.core.run 1 { s with inputs := [.request { op := 2, v := v, data := buf }] } =
      .next (({ s with inputs := [] } : State).give (decodeFrame s.cfg buf)) := by
    have hstep := step_request (s := { s with inputs := [.request { op := 2, v := v, data := buf }] }) (i := .decode buf)
      hadm rfl (blockedBy_idle henc hdec _) rfl
    exact core_run_succ (hstep.trans (execDecode_accepted hfits)) 0
  have hbegin := (step_serialDecode hadm hi (blockedBy_idle henc hdec _)).trans
    (beginDecode_accepted (s := { s with inputs := [] }) hfits)
  have halone : State.DecodingAlone (({ s with inputs := [] } : State).withDec
      { st := .scan, buf := some buf, asm := [], idx := 0, ovf := false, pos := 0 }) ParseState.initial buf :=
    ⟨hadm, rfl, henc ▸ EncUnit.idle_busy, [], ⟨rfl, rfl, rfl, rfl, rfl⟩, rfl⟩
  obtain ⟨k, hk, hrun⟩ := run_decodingAlone halone
  have hserial : Sys2Proof.core.run (k + 1) s =
      .next (({ s with inputs := [] } : State).give (decodeFrame s.cfg buf)) := by
    rw [core_run_succ hbegin, hrun, State.endDecode, ← hdec]
    rfl
  exact ⟨k + 1, Nat.succ_le_succ hk, hserial.trans hatomic.symm, hserial⟩

end Sys2Proof.Machine
end

section
/-! PROOF. NOP and BIND_SINK (42_control.md R170, R171): what each writes, and the fault of a bind that overlaps an ENCODE (R204). -/

namespace Sys2Proof.Machine

theorem EncUnit.not_busy {u : EncUnit} (hp : u.pkt = none) (hst : u.st = .idle) : u.busy = false := by
  rw [Bool.eq_false_iff, Ne, u.busy_iff]
  simp [hp, hst]

theorem DecUnit.not_busy {u : DecUnit} (hbuf : u.buf = none) : u.busy = false := by
  rw [Bool.eq_false_iff, Ne, u.busy_iff]
  simp [hbuf]

theorem execBindSink_atRest {s : State} (v : Bool) (h : s.enc.busy = false) :
    execBindSink v s = .next { s with sinkBound := v } := by
  rw [execBindSink, h, if_neg Bool.false_ne_true]

theorem execBindSink_race {s : State} (v : Bool) (h : s.enc.busy = true) : execBindSink v s = .fault .bindRace :=
  if_pos h

/-- Settles O19: NOP is the identity, and an idle block's step is one (`idle_step`). -/
theorem nopChangesNothing : Obligations.NopChangesNothing :=
  fun s => ⟨rfl, fun hadm hi hp hst hbuf =>
    idle_step s hadm hi (EncUnit.not_busy hp hst) (DecUnit.not_busy hbuf)⟩

/-- Settles O20: BIND_SINK looks only at whether the encoder is busy; writing the value SINK_BOUND already has is no change. -/
theorem bindSinkWritesSinkBound : Obligations.BindSinkWritesSinkBound := by
  intro s v
  refine ⟨fun hp hst => ?_, fun hp hst hv => ?_, fun hst => ?_⟩
  · exact execBindSink_atRest v (EncUnit.not_busy hp hst)
  · subst hv
    exact execBindSink_atRest s.sinkBound (EncUnit.not_busy hp hst)
  · exact execBindSink_race v (s.enc.busy_iff.mpr (.inr hst))

end Sys2Proof.Machine
end

section
/-! PROOF. Which steps fault, and that none is refused (60_exceptions.md R180, R182): a fault is the answer to an input that the host gave,
never to what a unit works on. -/

namespace Sys2Proof.Machine

theorem perform_ne_refused (a : Input) (s : State) (r : Refusal) : perform a s ≠ .refused r := by
  intro h
  obtain ⟨t, ht, -⟩ | ⟨f, hf, -⟩ := perform_cases a s
  · exact nomatch h.symm.trans ht
  · exact nomatch h.symm.trans hf

theorem step_ne_refused (s : State) (r : Refusal) : step s ≠ .refused r := by
  by_cases hadm : s.cfg.Admitted
  · rw [step_admitted s hadm]
    exact perform_ne_refused _ _ r
  · obtain ⟨k, -, hk⟩ := step_notAdmitted s hadm
    exact fun h => nomatch h.symm.trans hk

/-- A step of an admitted machine that faults is a turn that faults, on the state with other inputs at most. -/
theorem step_failed {s : State} {f : Fault} (hadm : s.cfg.Admitted) (h : step s = .fault f) :
    ∃ rest, Failed { s with inputs := rest } (schedule s).1 f := by
  obtain ⟨rest, hrest⟩ := schedule_state s
  rw [step_admitted s hadm] at h
  exact ⟨rest, hrest ▸ perform_fault h⟩

/-- The turns that the machine takes on its own, a unit's or an idle block's, fault only for a write past enc_buf. -/
theorem Failed.outOfBounds_of_own_turn {s : State} {a : Input} {f : Fault} (h : Failed s a f)
    (ha : a = .encoderTurn ∨ a = .decoderTurn ∨ a = .request PortWord.quiet) : f = .outOfBounds := by
  obtain rfl | rfl | rfl := ha
  · cases h with
    | bounds => rfl
    | pkt _ _ hw | buf _ _ hw | bind _ _ hw => simp at hw
  · cases h with
    | pkt _ _ hw | buf _ _ hw | bind _ _ hw => simp at hw
  · cases h with
    | pkt _ _ hw ho | buf _ _ hw ho | bind _ _ hw ho =>
      obtain hw | hw := hw <;> cases hw
      exact absurd ho (by decide)

/-- An ENCODE in progress holds its operand (10_state.md R30). -/
theorem EncUnit.Inv.pkt_ne_none {c : Config} {bound : Bool} {u : EncUnit} (hu : u.Inv c bound) (hb : u.busy = true) :
    u.pkt ≠ none := by
  intro hp
  rw [hu.atRest hp] at hb
  exact absurd hb (by decide)

/-- Settles O58: a sound machine faults on no turn of its own (`Failed.ne_outOfBounds`), so the turn that faults is the input at the head,
and `Failed` names what is wrong with it. -/
theorem onlyTheNamedConditionsFault : Obligations.OnlyTheNamedConditionsFault := by
  refine ⟨step_ne_refused, fun s f hadm hs h => ?_⟩
  obtain ⟨_, hfail⟩ := step_failed hadm h
  have hroom : f ≠ .outOfBounds := hfail.ne_outOfBounds hadm.2.2.2 hs.enc
  have hhead : s.inputs = (schedule s).1 :: (schedule s).2.inputs :=
    (schedule_turn s).resolve_right fun hown => hroom (hfail.outOfBounds_of_own_turn hown)
  refine ⟨(schedule s).2.inputs, ?_⟩
  generalize (schedule s).1 = a, (schedule s).2.inputs = rest at hfail hhead ⊢
  have hop : ∀ w, a = .request w ∨ a = .serial w → s.inputs = .request w :: rest ∨ s.inputs = .serial w :: rest :=
    fun w ha => hhead ▸ ha.imp (congrArg (· :: rest)) (congrArg (· :: rest))
  cases hfail with
  | pkt _ w ha ho hl => exact .inl ⟨w, hop w ha, .inl ⟨ho, hl, rfl⟩⟩
  | buf _ w ha ho hl => exact .inl ⟨w, hop w ha, .inr (.inl ⟨ho, hl, rfl⟩)⟩
  | bind _ w ha ho hb => exact .inl ⟨w, hop w ha, .inr (.inr ⟨ho, hs.enc.pkt_ne_none hb, rfl⟩)⟩
  | changed hd => exact .inr ⟨.inl ⟨hhead, s.dec.busy_iff.mp hd⟩, rfl⟩
  | shared => exact .inr ⟨.inr hhead, rfl⟩
  | bounds => exact absurd rfl hroom

end Sys2Proof.Machine
end

section
/-! PROOF. Reset and the hazards of the host (70_reset_and_hazards.md sections 1 and 3): inputs that wait for no unit and are answered in
the step that takes them. -/

namespace Sys2Proof.Machine

/-- A head of the inputs that does not wait for a unit is performed in this step. -/
theorem step_head {s : State} {a : Input} {rest : List Input} (hadm : s.cfg.Admitted) (hi : s.inputs = a :: rest)
    (hfree : ∀ w, a = .request w ∨ a = .serial w → blockedBy s w = none) :
    step s = perform a { s with inputs := rest } := by
  rw [step_admitted s hadm, schedule_head s a rest hi hfree]

theorem step_reset {s : State} {rest : List Input} (hadm : s.cfg.Admitted) (hi : s.inputs = .reset :: rest) :
    step s = .next (State.applyReset { s with inputs := rest }) :=
  step_head hadm hi (by simp)

theorem step_shareDest {s : State} {rest : List Input} (hadm : s.cfg.Admitted) (hi : s.inputs = .shareDest :: rest) :
    step s = .fault .bufferRace :=
  step_head hadm hi (by simp)

theorem step_changeBuf {s : State} {rest : List Input} (hadm : s.cfg.Admitted) (hi : s.inputs = .changeBuf :: rest) :
    step s = bufferHazard { s with inputs := rest } :=
  step_head hadm hi (by simp)

theorem bufferHazard_race {s : State} (h : s.dec.busy = true) : bufferHazard s = .fault .bufferRace :=
  if_pos h

theorem bufferHazard_atRest {s : State} (h : s.dec.busy = false) : bufferHazard s = .next s := by
  rw [bufferHazard, h, if_neg Bool.false_ne_true]

theorem decodePort_bindSink (sinkBound : Bool) {w : PortWord} (hw : w.op = 3) :
    decodePort sinkBound w = .bindSink w.v := by
  simp [decodePort, hw]

/-- BIND_SINK waits for no unit and has no byte-level steps, so both levels of presentation perform it at once (D1, log 10). -/
theorem step_bindSink {s : State} {w : PortWord} {rest : List Input} (hadm : s.cfg.Admitted) (hw : w.op = 3)
    (hi : s.inputs = .request w :: rest ∨ s.inputs = .serial w :: rest) :
    step s = execBindSink w.v { s with inputs := rest } := by
  have hfree : blockedBy s w = none := blockedBy_none s w (by simp [hw]) (by simp [hw])
  have hdec : decode s.cfg (.port s.sinkBound w) = .ok (.bindSink w.v) :=
    congrArg Except.ok (decodePort_bindSink s.sinkBound hw)
  obtain hi | hi := hi
  · exact step_request hadm hi hfree hdec
  · exact step_serial hadm hi hfree (by simp [hw]) (by simp [hw]) hdec

/-- Settles O2: reset puts both units at rest, and a block at rest with no input stays as it is (`idle_step`). -/
theorem resetAbandonsWhatIsInProgress : Obligations.ResetAbandonsWhatIsInProgress := by
  intro s rest hadm hi
  exact ⟨_, step_reset hadm hi, rfl, rfl, rfl, rfl, rfl, rfl, rfl, rfl,
    fun hrest => idle_step _ hadm hrest EncUnit.idle_busy DecUnit.idle_busy⟩

/-- Settles O59: each hazard is performed in the step that takes it, and faults exactly while the unit it disturbs is busy, or always
for a shared destination. -/
theorem hazardsOfTheHostAreFaults : Obligations.HazardsOfTheHostAreFaults := by
  intro s rest hadm
  refine ⟨fun w hw hi hbusy => ?_, step_shareDest hadm, fun hi => ⟨fun hbuf => ?_, fun hbuf => ?_⟩⟩
  · rw [step_bindSink hadm hw hi]
    exact execBindSink_race w.v (s.enc.busy_iff.mpr hbusy.symm)
  · rw [step_changeBuf hadm hi]
    exact bufferHazard_race (s.dec.busy_iff.mpr hbuf)
  · rw [step_changeBuf hadm hi]
    exact bufferHazard_atRest (DecUnit.not_busy hbuf)

end Sys2Proof.Machine
end
